-- ==== Sys2Proof/Word.lean ====
section
/-! DEFINITION. The one word type of the core: the byte. Every register, memory cell, address, immediate, opcode
and return address of this hardware is one byte (00_scope.md R7, R10; 20_memory.md R44). -/

namespace Sys2Proof

/-- A byte, an unsigned value 0..255, bit 0 least significant (R10). -/
abbrev Byte := BitVec 8

end Sys2Proof
end

