-- ==== Sys2Proof/Config.lean ====
section
/-! DEFINITION. What an implementation of the core fixes: the parameters of 00_scope.md R7 and R8.
The fixed ones are constants; the ones R8 keeps as named parameters are the fields of `Config`, which State carries
unchanged, so that every claim can be made for every value of them. -/

namespace Sys2Proof

/-- `MEM_SIZE` (R7): the number of memory cells, addressed 0..255. -/
def memSize : Nat := 256

/-- `NREG` (R7): the number of registers. -/
def numRegs : Nat := 8

/-- `SP_INDEX` (R7): x[7] is the data stack pointer. -/
abbrev spIndex : Fin 8 := 7

/-- `RSP_INDEX` (R7): x[6] is the return-address-stack pointer. -/
abbrev rspIndex : Fin 8 := 6

/-- `ADDR_OVERFLOW` (R8): what an address expression outside 0..255 does. -/
inductive AddrOverflow where
  | wrap    -- reduced mod 256; this hardware (92_eei_decisions.md D4)
  | fault   -- raises AddressOverflow; the conservative value kept for models
  deriving DecidableEq, Repr

/-- The parameters R8 leaves to the implementation. No instruction reads or writes one by name. -/
structure Config where
  addrOverflow : AddrOverflow
  spInit : Byte
  rspInit : Byte
  deriving DecidableEq, Repr

/-- The reference configuration (R13): `SP_INIT = RSP_INIT = 0xF4`, `ADDR_OVERFLOW = wrap`.
DESIGN CHOICE (notes/assumptions/1.md and 2.md): unsafe for the two stack pointers, whose value the spec leaves open. -/
def Config.reference : Config := { addrOverflow := .wrap, spInit := 0xF4#8, rspInit := 0xF4#8 }

end Sys2Proof
end

