-- ==== Sys2Proof/Machine/State.lean ====
section
/-! DEFINITION. Every piece of state the spec gives the core (10_state.md), the reasons a step can stop, and the state
after reset (R34). -/

namespace Sys2Proof.Machine

/-- The operation tag given to the ALU (44_alu.md R130). The source speaks of "any other operation tag": `other n`
stands for those (notes/assumptions/11.md). -/
inductive AluTag where
  | add
  | mul
  | other (n : Nat)
  deriving DecidableEq, Repr

/-- The fault causes of 60_exceptions.md R160, each with the info it records
(notes/assumptions/11.md). -/
inductive FaultCause where
  /-- The byte at pc is none of the nine opcodes; records that byte. -/
  | illegalOpcode (opcode : Byte)
  /-- A register operand byte is 8..255; records that byte. -/
  | illegalRegister (operand : Byte)
  /-- The ALU was given a tag other than ADD or MUL; records the tag. No instruction reaches it (R135). -/
  | unsupportedAluOp (tag : AluTag)
  /-- `ADDR_OVERFLOW = fault` and an address expression is outside 0..255; records the unreduced value. -/
  | addressOverflow (value : Int)
  deriving DecidableEq, Repr

/-- The fault record (10_state.md R29): the cause with its info, and the address of the faulting instruction's opcode. -/
structure FaultRecord where
  cause : FaultCause
  faultPc : Byte
  deriving DecidableEq, Repr

/-- The phases the core goes through after reset (70_reset_and_hazards.md R180): the host writes memory in `load`; from
the host's start on, the loop steps in `run`. DEDUCED from R180 and R185 (notes/assumptions/3.md), safe. -/
inductive Phase where
  | load
  | run
  deriving DecidableEq, Repr

/-- Memory: the cells that do not hold 0, at strictly rising addresses. A cell that is not listed holds 0, the value
reset gives every cell (R34). The form is `Memory.wf` of Machine/Ops.lean (notes/assumptions/6.md). -/
abbrev Memory := List Host.Cell

/-- The state of the core (10_state.md section 1), with the load phase and the configuration. -/
structure State where
  /-- the 256 memory cells (R20) -/
  mem : Memory
  /-- x[0]..x[7]; x[6] is RSP and x[7] is SP (R22, R23, R24) -/
  regs : Vector Byte 8
  /-- the program counter (R27) -/
  pc : Byte
  /-- the running flag (R28) -/
  running : Bool
  /-- the fault record, none until a fault (R29) -/
  fault : Option FaultRecord
  /-- the bytes PRN has emitted, oldest first (R30) -/
  out : List Byte
  /-- load or run (R180) -/
  phase : Phase
  /-- the parameters of 00_scope.md R8; no instruction changes them -/
  cfg : Config
  deriving DecidableEq, Repr

/-- Why a step has no next state. All three are the spec's own "no step" of 40_fetch_decode_execute.md R80 and R91 and
of 70_reset_and_hazards.md R180; `step` raises them before it fetches, and no instruction does. Safe. -/
inductive Fault where
  /-- Raised by `step` in the load phase: the first step happens only when the host gives start (R180). Safe. -/
  | notStarted
  /-- Raised by `step` when `running = false` and no fault is recorded: an HLT ended the run (R111, R186). Safe. -/
  | halted
  /-- Raised by `step` when a fault is recorded: the run ended fatally (R162, R186). Safe. -/
  | faulted (record : FaultRecord)
  deriving DecidableEq, Repr

/-- Why an instruction has no meaning. -/
inductive Refusal where
  /-- Raised by an arm of `exec` whose instruction the model gives no meaning yet; every instruction has one. Safe. -/
  | notModelled (mnemonic : String)
  deriving DecidableEq, Repr

/-- The state right after reset (R34), for any configuration. -/
def State.resetWith (cfg : Config) : State where
  mem := []
  regs := #v[0, 0, 0, 0, 0, 0, cfg.rspInit, cfg.spInit]
  pc := 0
  running := true
  fault := none
  out := []
  phase := .load
  cfg := cfg

/-- The state right after reset in the reference configuration (R13). The values of x[6] and x[7] are a DESIGN CHOICE,
unsafe (notes/assumptions/1.md): the spec leaves `SP_INIT` and `RSP_INIT` open. -/
def State.reset : State := State.resetWith Config.reference

end Sys2Proof.Machine
end

