-- ==== Sys2Proof/Machine/Ops.lean ====
section
/-! DEFINITION. The primitives of 00_scope.md R11 over memory, registers, pc, output and addresses, and fault entry
(60_exceptions.md R162). Each piece of state is read and written here and nowhere else. The core has no return from a
fault (R165), so there is none beside fault entry. -/

namespace Sys2Proof.Machine

/-! ## Memory (20_memory.md R40, R41) -/

/-- The byte in cell `a`: its entry, or 0 where it has none (10_state.md R34). -/
def Memory.read : Memory → Nat → Byte
  | [], _ => 0
  | (k, v) :: rest, a => if k = a then v else Memory.read rest a

/-- Put an entry before the first entry of a higher address. -/
def Memory.insert (a : Nat) (v : Byte) : Memory → Memory
  | [] => [(a, v)]
  | (k, w) :: rest => if a < k then (a, v) :: (k, w) :: rest else (k, w) :: Memory.insert a v rest

/-- Drop the entry of cell `a`. -/
def Memory.erase (a : Nat) (m : Memory) : Memory := m.filter (fun c => c.1 != a)

/-- Cell `a` becomes `v`; writing 0 leaves no entry. -/
def Memory.write (m : Memory) (a : Nat) (v : Byte) : Memory :=
  if v = 0 then m.erase a else Memory.insert a v (m.erase a)

/-- The canonical form: strictly rising addresses, all of them cells of the memory, and no entry that holds 0. -/
def Memory.wf (m : Memory) : Bool :=
  decide (m.Pairwise (fun c d => c.1 < d.1)) && m.all (fun c => decide (c.1 < memSize) && c.2 != 0)

/-- `MemRead(a, 1)` (R40). An address is a byte, so no access is outside 0..255 (R42). -/
def State.memRead (s : State) (a : Byte) : Byte := Memory.read s.mem a.toNat

/-- `MemWrite(a, 1, v)` (R41). -/
def State.memWrite (s : State) (a v : Byte) : State := { s with mem := Memory.write s.mem a.toNat v }

/-- Store a sequence of bytes in successive cells from `a` on. -/
def State.storeBytes (s : State) (a : Byte) : List Byte → State
  | [] => s
  | b :: bs => (s.memWrite a b).storeBytes (a + 1) bs

/-! ## Registers, pc and output (10_state.md R22 to R27, R30) -/

/-- `x[i]`. -/
def State.readReg (s : State) (i : Fin 8) : Byte := s.regs.get i

/-- `x[i] <- v`. No register is hardwired (R22). -/
def State.writeReg (s : State) (i : Fin 8) (v : Byte) : State := { s with regs := s.regs.set i v }

/-- `pc <- target`. -/
def State.setPc (s : State) (target : Byte) : State := { s with pc := target }

/-- `Output(v)`: append a byte to the output stream. -/
def State.emit (s : State) (v : Byte) : State := { s with out := s.out ++ [v] }

/-! ## Addresses (00_scope.md R11) -/

/-- `Addr8(v)`: reduce an address or pointer value to a byte, or raise AddressOverflow, by `ADDR_OVERFLOW`. -/
def addr8 (mode : AddrOverflow) (v : Int) : Except FaultCause Byte :=
  if 0 ≤ v ∧ v ≤ 255 then .ok (BitVec.ofInt 8 v)
  else
    match mode with
    | .wrap => .ok (BitVec.ofInt 8 v)
    | .fault => .error (.addressOverflow v)

/-- `Addr8(pc + k)`. -/
def State.pcPlus (s : State) (k : Nat) : Except FaultCause Byte := addr8 s.cfg.addrOverflow (s.pc.toNat + k)

/-- `Addr8(p - 1)`, where a stack pointer goes on a push (43_stack.md R115, 45_subroutine.md R145). -/
def State.below (s : State) (p : Byte) : Except FaultCause Byte := addr8 s.cfg.addrOverflow (p.toNat - 1)

/-- `Addr8(p + 1)`, where a stack pointer goes on a pop. -/
def State.above (s : State) (p : Byte) : Except FaultCause Byte := addr8 s.cfg.addrOverflow (p.toNat + 1)

/-! ## Faults (60_exceptions.md R160, R162) -/

/-- The code R160 gives a cause. -/
def FaultCause.code : FaultCause → Nat
  | .illegalOpcode _ => 1
  | .illegalRegister _ => 2
  | .unsupportedAluOp _ => 3
  | .addressOverflow _ => 4

/-- Fault entry, `raise Fault(cause, info)` in the step of the instruction at pc: record the fault and clear `running`,
and nothing else (R162). -/
def State.raise (s : State) (cause : FaultCause) : State :=
  { s with fault := some { cause := cause, faultPc := s.pc }, running := false }

/-- The handler template (40_fetch_decode_execute.md R88): the check phase writes nothing and may raise a fault; if it
raises none, its answer is the state after the commit phase. -/
def State.complete (s : State) (handler : Except FaultCause State) : Host.Outcome State Fault Refusal :=
  match handler with
  | .ok t => .next t
  | .error cause => .next (s.raise cause)

end Sys2Proof.Machine
end

