-- ==== Sys2Proof/Machine/Operands.lean ====
section
/-! DEFINITION. The operand forms: a register operand byte and an operand byte fetched after the opcode. The immediate
of LDI is the fetched byte itself (30_encoding.md R63). -/

namespace Sys2Proof.Machine

/-- `RegIdx(b)` (00_scope.md R11, 40_fetch_decode_execute.md R84): the register a whole operand byte names, or
IllegalRegister for 8..255; the byte is not masked (30_encoding.md R62). -/
def regIdx (b : Byte) : Except FaultCause (Fin 8) :=
  if h : b.toNat < 8 then .ok ⟨b.toNat, h⟩ else .error (.illegalRegister b)

/-- Operand byte k: `MemRead(Addr8(pc + k), 1)` (R83). -/
def State.operandByte (s : State) (k : Nat) : Except FaultCause Byte := do
  let a ← s.pcPlus k
  return s.memRead a

/-- `n` operand bytes from operand `k` on, fetched in increasing order (R83, 20_memory.md R51). -/
def State.operandBytes (s : State) (k : Nat) : Nat → Except FaultCause (List Byte)
  | 0 => .ok []
  | n + 1 => do
    let b ← s.operandByte k
    let bs ← s.operandBytes (k + 1) n
    return b :: bs

end Sys2Proof.Machine
end

