-- ==== Sys2Proof/Machine/Alu.lean ====
section
/-! DEFINITION. The ALU, MUL and ADD (44_alu.md). -/

namespace Sys2Proof.Machine

/-- The ALU function (R130): computed exactly, then reduced mod 256 in every configuration. A tag other than ADD or MUL
raises UnsupportedAluOp; no instruction gives one (R135). -/
def alu (tag : AluTag) (a b : Byte) : Except FaultCause Byte :=
  match tag with
  | .add => .ok (BitVec.ofNat 8 (a.toNat + b.toNat))
  | .mul => .ok (BitVec.ofNat 8 (a.toNat * b.toNat))
  | .other n => .error (.unsupportedAluOp (.other n))

/-- `apply(op, dest, src)` as MUL and ADD use it (R131): both register checks, the ALU, the pc check; then x[a] takes
the result. -/
def State.aluInstr (s : State) (tag : AluTag) (regA regB : Byte) : Except FaultCause State := do
  let a ← regIdx regA
  let b ← regIdx regB
  let v ← alu tag (s.readReg a) (s.readReg b)
  let pcn ← s.pcPlus 3
  return (s.writeReg a v).setPc pcn

/-- MUL (R132). -/
def execMul (regA regB : Byte) (s : State) : Host.Outcome State Fault Refusal :=
  s.complete (s.aluInstr .mul regA regB)

/-- ADD (R133). -/
def execAdd (regA regB : Byte) (s : State) : Host.Outcome State Fault Refusal :=
  s.complete (s.aluInstr .add regA regB)

end Sys2Proof.Machine
end

