-- ==== Sys2Proof/Machine/Flags.lean ====
section
/-! DEFINITION. The core has no condition codes and no status flags (10_state.md R31). Its one flag is `running`
(R28); with the fault record and the phase it decides whether the machine has a step. -/

namespace Sys2Proof.Machine

/-- `running <- false`. -/
def State.stopRunning (s : State) : State := { s with running := false }

/-- Why the machine has no step (40_fetch_decode_execute.md R80, R91; 70_reset_and_hazards.md R180), or none if it has
one: it has been started, `running = true` and `fault = none`. -/
def State.stopReason (s : State) : Option Fault :=
  match s.phase, s.fault, s.running with
  | .load, _, _ => some .notStarted
  | .run, some r, _ => some (.faulted r)
  | .run, none, false => some .halted
  | .run, none, true => none

end Sys2Proof.Machine
end

