-- ==== Sys2Proof/Machine/Halt.lean ====
section
/-! DEFINITION. HLT (42_halt.md). -/

namespace Sys2Proof.Machine

/-- HLT (R110): `running` is cleared, and pc still advances. -/
def execHlt (s : State) : Host.Outcome State Fault Refusal :=
  s.complete do
    let pcn ← s.pcPlus 1
    return s.stopRunning.setPc pcn

end Sys2Proof.Machine
end

