-- ==== Sys2Proof/Machine/LoadPrint.lean ====
section
/-! DEFINITION. LDI and PRN (41_load_print.md). -/

namespace Sys2Proof.Machine

/-- LDI (R100): x[dest] takes the immediate byte. -/
def execLdi (dest imm : Byte) (s : State) : Host.Outcome State Fault Refusal :=
  s.complete do
    let d ← regIdx dest
    let pcn ← s.pcPlus 3
    return (s.writeReg d imm).setPc pcn

/-- PRN (R101): the value of a register is appended to the output. -/
def execPrn (reg : Byte) (s : State) : Host.Outcome State Fault Refusal :=
  s.complete do
    let r ← regIdx reg
    let pcn ← s.pcPlus 2
    return (s.emit (s.readReg r)).setPc pcn

end Sys2Proof.Machine
end

