-- ==== Sys2Proof/Machine/Stack.lean ====
section
/-! DEFINITION. PUSH and POP, the data stack under SP = x[7] (43_stack.md). -/

namespace Sys2Proof.Machine

/-- The commit phase of PUSH (R116): SP first, then the store of x[r] as it stands after that write, so PUSH R7 stores
the decremented SP (00_scope.md R12). -/
def State.pushReg (s : State) (spn : Byte) (r : Fin 8) : State :=
  let s' := s.writeReg spIndex spn
  s'.memWrite spn (s'.readReg r)

/-- PUSH (R116). -/
def execPush (reg : Byte) (s : State) : Host.Outcome State Fault Refusal :=
  s.complete do
    let r ← regIdx reg
    let spn ← s.below (s.readReg spIndex)
    let pcn ← s.pcPlus 2
    return (s.pushReg spn r).setPc pcn

/-- POP (R117): x[r] takes the byte at SP and SP goes up by one; POP R7 leaves the popped byte plus one, because the
increment follows the load (R12). -/
def execPop (reg : Byte) (s : State) : Host.Outcome State Fault Refusal :=
  s.complete do
    let r ← regIdx reg
    let v := s.memRead (s.readReg spIndex)
    let base := if r = spIndex then v else s.readReg spIndex
    let spn ← s.above base
    let pcn ← s.pcPlus 2
    return ((s.writeReg r v).writeReg spIndex spn).setPc pcn

end Sys2Proof.Machine
end

