-- ==== Sys2Proof/Machine/Subroutine.lean ====
section
/-! DEFINITION. CALL and RET, the return-address stack under RSP = x[6] (45_subroutine.md). -/

namespace Sys2Proof.Machine

/-- CALL (R146): RSP goes down by one, the address after the CALL is stored there, and pc takes x[r] as it stands after
RSP was written, so CALL R6 jumps to the new RSP (00_scope.md R12). -/
def execCall (reg : Byte) (s : State) : Host.Outcome State Fault Refusal :=
  s.complete do
    let r ← regIdx reg
    let ra ← s.pcPlus 2
    let rspn ← s.below (s.readReg rspIndex)
    let t := (s.writeReg rspIndex rspn).memWrite rspn ra
    return t.setPc (t.readReg r)

/-- RET (R147): pc takes the byte at RSP, and RSP goes up by one. -/
def execRet (s : State) : Host.Outcome State Fault Refusal :=
  s.complete do
    let v := s.memRead (s.readReg rspIndex)
    let rspn ← s.above (s.readReg rspIndex)
    return (s.setPc v).writeReg rspIndex rspn

end Sys2Proof.Machine
end

