-- ==== Sys2Proof/Syntax.lean ====
section
/-! DEFINITION. The instructions: one constructor per row of spec/opcode_table.json (30_encoding.md R65).
Every operand is the whole byte that follows the opcode (R61, R62, R63): a register operand is not masked, and a byte
of 8 or more is an operand that faults when the instruction executes, so it is part of the syntax. -/

namespace Sys2Proof

/-- The nine instructions, in the table's order. -/
inductive Instr where
  | ldi  (dest imm : Byte)      -- LDI dest_reg, immediate (41_load_print.md R100)
  | prn  (reg : Byte)           -- PRN reg (41_load_print.md R101)
  | hlt                         -- HLT (42_halt.md R110)
  | push (reg : Byte)           -- PUSH reg (43_stack.md R116)
  | pop  (reg : Byte)           -- POP reg (43_stack.md R117)
  | mul  (regA regB : Byte)     -- MUL reg_a, reg_b (44_alu.md R132)
  | add  (regA regB : Byte)     -- ADD reg_a, reg_b (44_alu.md R133)
  | call (reg : Byte)           -- CALL reg (45_subroutine.md R146)
  | ret                         -- RET (45_subroutine.md R147)
  deriving DecidableEq, Repr

end Sys2Proof
end

