-- ==== Sys2Proof/WellFormed.lean ====
section
/-! DEFINITION. Which instructions name registers that exist (30_encoding.md R62). An instruction that is not well
formed still decodes and executes: it takes the IllegalRegister fault (40_fetch_decode_execute.md R84). -/

namespace Sys2Proof

/-- A register operand byte names a register: it is 0..7 (R62). -/
def namesRegister (b : Byte) : Bool := b.toNat < numRegs

/-- Every register operand names a register. The immediate of LDI is not checked (R84). -/
def Instr.wf : Instr → Bool
  | .ldi dest _ => namesRegister dest
  | .prn reg => namesRegister reg
  | .hlt => true
  | .push reg => namesRegister reg
  | .pop reg => namesRegister reg
  | .mul regA regB => namesRegister regA && namesRegister regB
  | .add regA regB => namesRegister regA && namesRegister regB
  | .call reg => namesRegister reg
  | .ret => true

end Sys2Proof
end

