-- ==== Sys2Proof/Decode.lean ====
section
/-! DEFINITION. The encoding of 30_encoding.md: the opcode map (R65), the decoder (R64, R67, R68), and the encoder
written from the same map, with the assembler spelling of R69. -/

namespace Sys2Proof

/-- The nine opcodes of R65, in the table's order. -/
inductive Opcode where
  | ldi | prn | hlt | push | pop | mul | add | call | ret
  deriving DecidableEq, Repr

/-- The opcode map (R65): the binary pattern of each opcode. -/
def Opcode.byte : Opcode → Byte
  | .ldi  => 0b10000010#8
  | .prn  => 0b01000111#8
  | .hlt  => 0b00000001#8
  | .push => 0b01000101#8
  | .pop  => 0b01000110#8
  | .mul  => 0b10100010#8
  | .add  => 0b10100000#8
  | .call => 0b01010000#8
  | .ret  => 0b00010001#8

/-- The rows of the opcode map, in the table's order. -/
def Opcode.all : List Opcode := [.ldi, .prn, .hlt, .push, .pop, .mul, .add, .call, .ret]

/-- Decode of the opcode byte: an exact match of all eight bits against the nine patterns (R64). The other 247 bytes
name no opcode (R67). -/
def Opcode.ofByte? (b : Byte) : Option Opcode := Opcode.all.find? (fun o => o.byte == b)

/-- The number of operand bytes, fixed by the opcode alone (R60, R65). -/
def Opcode.operandCount : Opcode → Nat
  | .hlt | .ret => 0
  | .prn | .push | .pop | .call => 1
  | .ldi | .mul | .add => 2

/-- The instruction of an opcode and the operand bytes after it, with the bytes left over; none if there are too few. -/
def Opcode.assemble : Opcode → List Byte → Option (Instr × List Byte)
  | .ldi, dest :: imm :: rest => some (.ldi dest imm, rest)
  | .prn, reg :: rest => some (.prn reg, rest)
  | .hlt, rest => some (.hlt, rest)
  | .push, reg :: rest => some (.push reg, rest)
  | .pop, reg :: rest => some (.pop reg, rest)
  | .mul, regA :: regB :: rest => some (.mul regA regB, rest)
  | .add, regA :: regB :: rest => some (.add regA regB, rest)
  | .call, reg :: rest => some (.call reg, rest)
  | .ret, rest => some (.ret, rest)
  | _, _ => none

/-- Why a list of bytes is no instruction. -/
inductive DecodeError where
  | noBytes                     -- the list is empty
  | illegalOpcode (op : Byte)   -- the first byte is none of the nine opcodes (R67)
  | truncated (op : Byte)       -- fewer operand bytes follow than the opcode takes
  deriving DecidableEq, Repr

/-- The decoder, total on any bytes: the instruction at the head of the list, and the bytes after it. -/
def decode : List Byte → Except DecodeError (Instr × List Byte)
  | [] => .error .noBytes
  | op :: rest =>
    match Opcode.ofByte? op with
    | none => .error (.illegalOpcode op)
    | some o =>
      match o.assemble rest with
      | some r => .ok r
      | none => .error (.truncated op)

/-- The opcode of an instruction. -/
def Instr.opcode : Instr → Opcode
  | .ldi _ _ => .ldi
  | .prn _ => .prn
  | .hlt => .hlt
  | .push _ => .push
  | .pop _ => .pop
  | .mul _ _ => .mul
  | .add _ _ => .add
  | .call _ => .call
  | .ret => .ret

/-- The operand bytes of an instruction, in the order they stand in memory (R61). -/
def Instr.operands : Instr → List Byte
  | .ldi dest imm => [dest, imm]
  | .prn reg => [reg]
  | .hlt => []
  | .push reg => [reg]
  | .pop reg => [reg]
  | .mul regA regB => [regA, regB]
  | .add regA regB => [regA, regB]
  | .call reg => [reg]
  | .ret => []

/-- The encoder: the opcode byte and then the operand bytes (R60, R61). -/
def encode (i : Instr) : List Byte := i.opcode.byte :: i.operands

/-- The instruction width: opcode byte plus operand bytes (00_scope.md R13, R60). -/
def Instr.width (i : Instr) : Nat := i.opcode.operandCount + 1

/-- The bytes of a word numbered as spec/opcode_table.json numbers it: the opcode is bits 7..0, operand 1 bits 15..8,
operand 2 bits 23..16; every bit from `nbits` on is 0. Three bytes are the longest instruction. -/
def tableWordBytes (nbits w : Nat) : List Byte :=
  let v := w % 2 ^ nbits
  [BitVec.ofNat 8 v, BitVec.ofNat 8 (v / 256), BitVec.ofNat 8 (v / 65536)]

/-- The instruction the decoder reads from a word of the opcode table. -/
def decodeTableWord (nbits w : Nat) : Option Instr :=
  match decode (tableWordBytes nbits w) with
  | .ok (i, _) => some i
  | .error _ => none

/-- A register operand in assembler syntax, `Rn` for n in 0..7 (R69; R6 and R7 are not written RSP and SP). DESIGN CHOICE:
R69 gives a byte of 8 or more no spelling; it is written `R8` to `R255` (notes/assumptions/12.md). -/
def asmReg (b : Byte) : String := "R" ++ toString b.toNat

/-- The assembler spelling of an instruction (R69), an immediate in decimal, one of the two forms R69 allows
(notes/assumptions/12.md). -/
def Instr.asm : Instr → String
  | .ldi dest imm => "LDI " ++ asmReg dest ++ ", " ++ toString imm.toNat
  | .prn reg => "PRN " ++ asmReg reg
  | .hlt => "HLT"
  | .push reg => "PUSH " ++ asmReg reg
  | .pop reg => "POP " ++ asmReg reg
  | .mul regA regB => "MUL " ++ asmReg regA ++ ", " ++ asmReg regB
  | .add regA regB => "ADD " ++ asmReg regA ++ ", " ++ asmReg regB
  | .call reg => "CALL " ++ asmReg reg
  | .ret => "RET"

end Sys2Proof
end

