-- ==== Sys2Proof/Machine/Fetch.lean ====
section
/-! DEFINITION. Fetch, decode and operand fetch (40_fetch_decode_execute.md R81, R82, R83). -/

namespace Sys2Proof.Machine

/-- The instruction at pc: the opcode byte is read and decoded by exact match, then its operand bytes are read in
order. The last `none` is never reached: as many operand bytes are fetched as the opcode takes
(Laws/Fetch.lean, assemble_of_length). -/
def State.fetchInstr (s : State) : Except FaultCause Instr :=
  let op := s.memRead s.pc
  match Opcode.ofByte? op with
  | none => .error (.illegalOpcode op)
  | some o => do
    let operands ← s.operandBytes 1 o.operandCount
    match o.assemble operands with
    | some (i, _) => return i
    | none => .error (.illegalOpcode op)

end Sys2Proof.Machine
end

