-- ==== Sys2Proof/Machine/Step.lean ====
section
/-! DEFINITION. The step (40_fetch_decode_execute.md R80, R89): one whole instruction (00_scope.md R9). -/

namespace Sys2Proof.Machine

/-- One step: no step when the machine is stopped or not started; else fetch, decode, operand fetch and execute. A
fault on the way is a next state with the fault recorded (60_exceptions.md R162; notes/assumptions/4.md). -/
def step (s : State) : Host.Outcome State Fault Refusal :=
  match s.stopReason with
  | some r => .fault r
  | none =>
    match s.fetchInstr with
    | .ok i => exec i s
    | .error cause => .next (s.raise cause)

/-- `s` with the word of an instruction (numbered as in `tableWordBytes`) in the three cells from pc on, wrapping, and
with all that the fetch needs besides: started, running and with no fault recorded (notes/assumptions/5.md). -/
def State.withFetchWord (s : State) (nbits w : Nat) : State :=
  { s.storeBytes s.pc (tableWordBytes nbits w) with phase := .run, running := true, fault := none }

end Sys2Proof.Machine
end

