-- ==== Sys2Proof/Machine/Interface.lean ====
section
/-! DEFINITION. The host interface of the core (70_reset_and_hazards.md R180 to R186, R193): the events reset, load and
start, the output, status and trace the host reads, and the host-side program text (30_encoding.md R70), decimal
rendering (41_load_print.md R102) and exit status. None of it is part of a step. -/

namespace Sys2Proof.Machine

/-! ## Events from the host (R185) -/

/-- What the host can do to the core. It can write no register and no pc, and no memory after start (R185). -/
inductive HostEvent where
  | reset                      -- sets the state of 10_state.md R34
  | load (program : List Byte) -- load phase only (R181)
  | start                      -- ends the load phase
  deriving DecidableEq, Repr

/-- Why a load fails, before any instruction runs (R181, R182), or an event comes outside its phase. Which is named where
several apply is the model's choice (notes/assumptions/13.md). -/
inductive LoadError where
  | fileNotFound               -- the program file is missing (R182)
  | malformedLine (n : Nat)    -- line n, counted from 0, is not a base-2 integer in 0..255 (R70, R182)
  | programTooLong (n : Nat)   -- n > 256 bytes (R181)
  | notInLoadPhase             -- load or start after start (R185)
  deriving DecidableEq, Repr

/-- The state an event leaves. A load stores the program from address 0 and changes nothing but memory (R181);
start changes nothing but the phase (R180); reset keeps the configuration. -/
def State.hostEvent (s : State) : HostEvent → Except LoadError State
  | .reset => .ok (State.resetWith s.cfg)
  | .load p =>
    match s.phase with
    | .run => .error .notInLoadPhase
    | .load => if p.length ≤ memSize then .ok (s.storeBytes 0 p) else .error (.programTooLong p.length)
  | .start =>
    match s.phase with
    | .run => .error .notInLoadPhase
    | .load => .ok { s with phase := .run }

/-- Reset, load and start (R180): the state in which the first step runs, at pc 0 (R183). -/
def boot (cfg : Config) (program : List Byte) : Except LoadError State := do
  let s ← (State.resetWith cfg).hostEvent (.load program)
  s.hostEvent .start

/-! ## What the host reads (R185) -/

/-- The status interface (R185): `running` and the fault record. -/
structure Status where
  running : Bool
  fault : Option FaultRecord
  deriving DecidableEq, Repr

/-- Readable at any time, final when `running = false` (R185). -/
def State.status (s : State) : Status := { running := s.running, fault := s.fault }

/-- The cause code of 60_exceptions.md R160; 0 is no fault. -/
def Status.code (st : Status) : Nat :=
  match st.fault with
  | none => 0
  | some r => r.cause.code

/-- The run has ended cleanly: an HLT was executed (R186). -/
def Status.endedCleanly (st : Status) : Bool := !st.running && st.fault.isNone

/-- The run has ended fatally (R186). -/
def Status.endedFatally (st : Status) : Bool := !st.running && st.fault.isSome

/-- The trace port (60_exceptions.md R172): pc, the three cells from pc on, and the eight registers. -/
structure Trace where
  pc : Byte
  cells : Vector Byte 3
  regs : Vector Byte 8
  deriving DecidableEq, Repr

/-- The trace wraps its addresses in every configuration, so it never faults, and it changes no state (R172). -/
def State.trace (s : State) : Trace where
  pc := s.pc
  cells := #v[s.memRead s.pc, s.memRead (s.pc + 1), s.memRead (s.pc + 2)]
  regs := s.regs

/-! ## The host's side: text in, text out, exit status -/

/-- One emitted byte as decimal digits and a newline (R102). -/
def renderByte (v : Byte) : List Char := Nat.toDigits 10 v.toNat ++ ['\n']

/-- The standard output of a run: one line per PRN, in order (R102). -/
def State.rendered (s : State) : List Char := s.out.flatMap renderByte

/-- White space of a program line: space, tab and carriage return. DESIGN CHOICE (notes/assumptions/8.md), unsafe. -/
def isBlank (c : Char) : Bool := c == ' ' || c == '\t' || c == '\r'

/-- A base-2 integer: one or more digits 0 and 1, most significant first, and nothing else.
DESIGN CHOICE (notes/assumptions/8.md), unsafe. -/
def parseBase2 (digits : List Char) : Option Nat :=
  match digits with
  | [] => none
  | ds => ds.foldl (fun acc c =>
      match acc, c with
      | some n, '0' => some (2 * n)
      | some n, '1' => some (2 * n + 1)
      | _, _ => none) (some 0)

/-- The part of a line before its comment, trimmed (R70). -/
def lineText (line : List Char) : List Char :=
  (((line.takeWhile (· != '#')).dropWhile isBlank).reverse.dropWhile isBlank).reverse

/-- The lines of a text. -/
def textLines (text : List Char) : List (List Char) :=
  text.foldr (fun c ls =>
    match c, ls with
    | '\n', ls => [] :: ls
    | c, l :: ls => (c :: l) :: ls
    | c, [] => [[c]]) [[]]

/-- The bytes of the lines from line `n` on: blank and comment-only lines are skipped, and a line that is not a base-2
integer in 0..255 fails the load (R70, R182). Of several such lines the first is named (notes/assumptions/13.md). -/
def parseLines (n : Nat) : List (List Char) → Except LoadError (List Byte)
  | [] => .ok []
  | line :: lines =>
    match lineText line with
    | [] => parseLines (n + 1) lines
    | c :: cs =>
      match parseBase2 (c :: cs) with
      | none => .error (.malformedLine n)
      | some v =>
        if v < 256 then do
          let bs ← parseLines (n + 1) lines
          return BitVec.ofNat 8 v :: bs
        else .error (.malformedLine n)

/-- The loader: the bytes of a program file, none standing for a file that is not there (R70, R182). DESIGN CHOICE: R182
gives no order among the load failures; every line is read before the length is checked (the load event checks it), so a
text that is malformed and too long fails as `malformedLine` (notes/assumptions/13.md). -/
def loadText (file : Option (List Char)) : Except LoadError (List Byte) :=
  match file with
  | none => .error .fileNotFound
  | some text => parseLines 0 (textLines text)

/-- The host parameters of R193; the numbers are not given. `badLoad` is the status of the other load failures of R182,
which the spec only calls non-zero, and of a load or start after start, of which it says nothing; both are the model's
choice (notes/assumptions/9.md). -/
structure ExitCodes where
  ok : Nat
  usage : Nat
  noFile : Nat
  badLoad : Nat
  fault : Nat
  deriving DecidableEq, Repr

/-- What R182 and R193 say of the codes: failures are not zero, and a usage error and a missing file differ. -/
def ExitCodes.wf (c : ExitCodes) : Bool :=
  c.usage != 0 && c.noFile != 0 && c.badLoad != 0 && c.fault != 0 && c.usage != c.noFile

/-- The process exit status of a run, none while it has not ended (R186, R193). -/
def Status.exitStatus (st : Status) (codes : ExitCodes) : Option Nat :=
  if st.running then none
  else if st.fault.isNone then some codes.ok
  else some codes.fault

/-- The process exit status of a load that fails before start: the core is never started (R182, R193). The one code for a
malformed line and for an over-long program is the model's choice (notes/assumptions/9.md). DESIGN CHOICE: a load or start
given after start (`notInLoadPhase`) is no load failure of R182 and R193 gives it no status; it answers `badLoad` as well
(the same log entry). -/
def LoadError.exitStatus (e : LoadError) (codes : ExitCodes) : Nat :=
  match e with
  | .fileNotFound => codes.noFile
  | .malformedLine _ => codes.badLoad
  | .programTooLong _ => codes.badLoad
  | .notInLoadPhase => codes.badLoad

end Sys2Proof.Machine
end

