-- ==== Sys2Proof/Safety.lean ====
section
/-! DEFINITION. What holds of every state the core can be in: the invariant that reset has and that every step and
every host event keeps. -/

namespace Sys2Proof.Machine

/-- The machine has a step: the host has started it, `running = true` and `fault = none`
(40_fetch_decode_execute.md R80, 70_reset_and_hazards.md R180). -/
abbrev State.Live (s : State) : Prop := s.phase = .run ∧ s.running = true ∧ s.fault = none

/-- A recorded cause tells the truth about the state it was raised in, where faults are precise
(40_fetch_decode_execute.md R88): the illegal opcode is the byte at pc and none of the nine (R82), an illegal register
byte is 8 or more (R84), an overflow is one of the two values a fetched instruction can reach and only under
`ADDR_OVERFLOW = fault` (R92), and UnsupportedAluOp is never raised (44_alu.md R135). -/
def FaultCause.TrueOf (s : State) : FaultCause → Prop
  | .illegalOpcode op => op = s.memRead s.pc ∧ Opcode.ofByte? op = none
  | .illegalRegister b => 8 ≤ b.toNat
  | .unsupportedAluOp _ => False
  | .addressOverflow v => s.cfg.addrOverflow = .fault ∧ (v = -1 ∨ v = 256)

/-- The invariant of the core: memory is in its canonical form; a recorded fault has stopped the run, at the address
pc still holds, and is true; and before the host's start nothing but memory differs from reset. -/
structure State.Inv (s : State) : Prop where
  mem_wf : s.mem.wf = true
  fault_stops : s.fault ≠ none → s.running = false
  fault_at_pc : ∀ r, s.fault = some r → r.faultPc = s.pc ∧ r.cause.TrueOf s
  load_is_reset : s.phase = .load → s = { State.resetWith s.cfg with mem := s.mem }

end Sys2Proof.Machine
end

