-- ==== Sys2Proof/Certificates/Slice0/Obligations.lean ====
section
/-! DEFINITION. The statements for the provers. `Sys2Proof.Claims` holds the words they are written in. -/

namespace Sys2Proof.Claims

open Sys2Proof.Machine

/-- Fault entry written out (60_exceptions.md R162): the record, `running` cleared, and nothing else. -/
def faultEntry (s : State) (c : FaultCause) : State :=
  { s with fault := some { cause := c, faultPc := s.pc }, running := false }

/-- `Addr8(pc + k)` raises nothing (00_scope.md R11). -/
abbrev fits (s : State) (k : Nat) : Prop := s.cfg.addrOverflow = .wrap ∨ s.pc.toNat + k ≤ 255

/-- `Addr8(pc + k)` raises AddressOverflow(pc + k) (R11). -/
abbrev overflows (s : State) (k : Nat) : Prop := s.cfg.addrOverflow = .fault ∧ 255 < s.pc.toNat + k

/-- Every register but those listed is unchanged. -/
def sameRegsExcept (s t : State) (written : List Nat) : Prop :=
  ∀ j : Fin 8, j.val ∉ written → t.readReg j = s.readReg j

/-- Every byte of memory reads as before. -/
def sameMemory (s t : State) : Prop := ∀ a : Byte, t.memRead a = s.memRead a

/-- Phase and configuration are unchanged, and so are the fault record and `running`, unless the instruction took a
fault, which changes those two and nothing else. -/
def sameControl (s t : State) : Prop :=
  t.phase = s.phase ∧ t.cfg = s.cfg ∧ ((t.fault = s.fault ∧ t.running = s.running) ∨ ∃ c, t = faultEntry s c)

/-- The register operand bytes of an instruction (30_encoding.md R61); the immediate of LDI is none. -/
def registerOperands : Instr → List Byte
  | .ldi dest _ => [dest]
  | .mul regA regB => [regA, regB]
  | .add regA regB => [regA, regB]
  | .prn reg => [reg]
  | .push reg => [reg]
  | .pop reg => [reg]
  | .call reg => [reg]
  | .hlt => []
  | .ret => []

/-- CALL and RET, the control transfers (40_fetch_decode_execute.md R87). -/
def isTransfer (i : Instr) : Prop := i = .ret ∨ ∃ r, i = .call r

/-- The program text line of a byte: its eight binary digits, most significant first, and a newline
(30_encoding.md R70). -/
def binaryLine (b : Byte) : List Char :=
  [7, 6, 5, 4, 3, 2, 1, 0].map (fun k => if b.getLsbD k then '1' else '0') ++ ['\n']

end Sys2Proof.Claims

open Sys2Proof Sys2Proof.Machine Sys2Proof.Claims

/-! ## The nine instructions -/

/-- 41_load_print.md R100. Clause 1 is the effect, for every register and every pc; clauses 2 to 4 are the rule's
"Faults" line: an illegal register byte, an overflow of pc + 3, an overflow of the operand fetch (behind them stand
the spec's decisions D5 and D4). -/
def Obligations.LdiSetsRegisterToImmediate : Prop :=
  ∀ (d v : Byte) (s : State),
    (∀ h : d.toNat < 8, fits s 3 →
      exec (.ldi d v) s = .next { s with regs := s.regs.set d.toNat v h, pc := s.pc + 3 }) ∧
    (8 ≤ d.toNat → exec (.ldi d v) s = .next (faultEntry s (.illegalRegister d))) ∧
    (d.toNat < 8 → overflows s 3 →
      exec (.ldi d v) s = .next (faultEntry s (.addressOverflow (s.pc.toNat + 3)))) ∧
    (s.Live → s.memRead s.pc = 0x82#8 → s.cfg.addrOverflow = .fault → 254 ≤ s.pc.toNat →
      step s = .next (faultEntry s (.addressOverflow 256)))

/-- 41_load_print.md R101; that the core emits the byte and leaves the decimal text to the host is the spec's own
decision D13, so the basis is derived. -/
def Obligations.PrnAppendsRegisterToOutput : Prop :=
  ∀ (r : Byte) (s : State),
    (∀ h : r.toNat < 8, fits s 2 →
      exec (.prn r) s = .next { s with out := s.out ++ [s.regs[r.toNat]], pc := s.pc + 2 }) ∧
    (8 ≤ r.toNat → exec (.prn r) s = .next (faultEntry s (.illegalRegister r))) ∧
    (r.toNat < 8 → overflows s 2 →
      exec (.prn r) s = .next (faultEntry s (.addressOverflow (s.pc.toNat + 2))))

/-- 42_halt.md R110: `running` is cleared and pc still advances; the only fault is the overflow of an HLT at 255. -/
def Obligations.HltClearsRunningAndAdvances : Prop :=
  ∀ s : State,
    (fits s 1 → exec .hlt s = .next { s with running := false, pc := s.pc + 1 }) ∧
    (overflows s 1 → s.pc = 255 ∧ exec .hlt s = .next (faultEntry s (.addressOverflow 256)))

/-- 43_stack.md R116. PUSH R7 stores the decremented SP: that clause is the spec's own decision D25, so the basis is
derived. Where both pointers overflow, SP is reported first (60_exceptions.md R164). -/
def Obligations.PushStoresBelowStackPointer : Prop :=
  ∀ (r : Byte) (s : State),
    (∀ h : r.toNat < 8, fits s 2 → (s.cfg.addrOverflow = .wrap ∨ s.regs[7] ≠ 0) →
      exec (.push r) s = .next
        { s with
          regs := s.regs.set 7 (s.regs[7] - 1)
          mem := Memory.write s.mem (s.regs[7] - 1).toNat (if r = 7 then s.regs[7] - 1 else s.regs[r.toNat])
          pc := s.pc + 2 }) ∧
    (8 ≤ r.toNat → exec (.push r) s = .next (faultEntry s (.illegalRegister r))) ∧
    (r.toNat < 8 → s.cfg.addrOverflow = .fault → s.regs[7] = 0 →
      exec (.push r) s = .next (faultEntry s (.addressOverflow (-1)))) ∧
    (r.toNat < 8 → s.regs[7] ≠ 0 → overflows s 2 →
      exec (.push r) s = .next (faultEntry s (.addressOverflow (s.pc.toNat + 2))))

/-- 43_stack.md R117: the popped byte, and SP plus one; POP R7 leaves the popped byte plus one, the spec's own decision
D25, so the basis is derived. `base` is the value the increment starts from. -/
def Obligations.PopLoadsFromStackPointer : Prop :=
  ∀ (r : Byte) (s : State) (v base : Byte), v = s.memRead s.regs[7] → base = (if r = 7 then v else s.regs[7]) →
    (∀ h : r.toNat < 8, fits s 2 → (s.cfg.addrOverflow = .wrap ∨ base ≠ 255) →
      exec (.pop r) s = .next { s with regs := (s.regs.set r.toNat v h).set 7 (base + 1), pc := s.pc + 2 }) ∧
    (8 ≤ r.toNat → exec (.pop r) s = .next (faultEntry s (.illegalRegister r))) ∧
    (r.toNat < 8 → s.cfg.addrOverflow = .fault → base = 255 →
      exec (.pop r) s = .next (faultEntry s (.addressOverflow 256))) ∧
    (r.toNat < 8 → base ≠ 255 → overflows s 2 →
      exec (.pop r) s = .next (faultEntry s (.addressOverflow (s.pc.toNat + 2))))

/-- 44_alu.md R132: the low byte of the product goes to the first operand; the checks run in operand order. -/
def Obligations.MulKeepsLowByteOfProduct : Prop :=
  ∀ (a b : Byte) (s : State),
    (∀ (ha : a.toNat < 8) (hb : b.toNat < 8), fits s 3 →
      exec (.mul a b) s = .next
        { s with
          regs := s.regs.set a.toNat (BitVec.ofNat 8 (s.regs[a.toNat].toNat * s.regs[b.toNat].toNat % 256)) ha
          pc := s.pc + 3 }) ∧
    (8 ≤ a.toNat → exec (.mul a b) s = .next (faultEntry s (.illegalRegister a))) ∧
    (a.toNat < 8 → 8 ≤ b.toNat → exec (.mul a b) s = .next (faultEntry s (.illegalRegister b))) ∧
    (a.toNat < 8 → b.toNat < 8 → overflows s 3 →
      exec (.mul a b) s = .next (faultEntry s (.addressOverflow (s.pc.toNat + 3)))) ∧
    (s.Live → s.memRead s.pc = 0xA2#8 → s.cfg.addrOverflow = .fault → 254 ≤ s.pc.toNat →
      step s = .next (faultEntry s (.addressOverflow 256)))

/-- 44_alu.md R133: the low byte of the sum goes to the first operand; the checks run in operand order. -/
def Obligations.AddKeepsLowByteOfSum : Prop :=
  ∀ (a b : Byte) (s : State),
    (∀ (ha : a.toNat < 8) (hb : b.toNat < 8), fits s 3 →
      exec (.add a b) s = .next
        { s with
          regs := s.regs.set a.toNat (BitVec.ofNat 8 ((s.regs[a.toNat].toNat + s.regs[b.toNat].toNat) % 256)) ha
          pc := s.pc + 3 }) ∧
    (8 ≤ a.toNat → exec (.add a b) s = .next (faultEntry s (.illegalRegister a))) ∧
    (a.toNat < 8 → 8 ≤ b.toNat → exec (.add a b) s = .next (faultEntry s (.illegalRegister b))) ∧
    (a.toNat < 8 → b.toNat < 8 → overflows s 3 →
      exec (.add a b) s = .next (faultEntry s (.addressOverflow (s.pc.toNat + 3)))) ∧
    (s.Live → s.memRead s.pc = 0xA0#8 → s.cfg.addrOverflow = .fault → 254 ≤ s.pc.toNat →
      step s = .next (faultEntry s (.addressOverflow 256)))

/-- 45_subroutine.md R146. CALL R6 jumps to the new RSP: that clause is the spec's own decision D20, so the basis is
derived. The return address is checked before RSP (60_exceptions.md R164). -/
def Obligations.CallSavesReturnAddressAndJumps : Prop :=
  ∀ (r : Byte) (s : State),
    (∀ h : r.toNat < 8, fits s 2 → (s.cfg.addrOverflow = .wrap ∨ s.regs[6] ≠ 0) →
      exec (.call r) s = .next
        { s with
          regs := s.regs.set 6 (s.regs[6] - 1)
          mem := Memory.write s.mem (s.regs[6] - 1).toNat (s.pc + 2)
          pc := if r = 6 then s.regs[6] - 1 else s.regs[r.toNat] }) ∧
    (8 ≤ r.toNat → exec (.call r) s = .next (faultEntry s (.illegalRegister r))) ∧
    (r.toNat < 8 → overflows s 2 →
      exec (.call r) s = .next (faultEntry s (.addressOverflow (s.pc.toNat + 2)))) ∧
    (r.toNat < 8 → fits s 2 → s.cfg.addrOverflow = .fault → s.regs[6] = 0 →
      exec (.call r) s = .next (faultEntry s (.addressOverflow (-1))))

/-- 45_subroutine.md R147. -/
def Obligations.RetJumpsToSavedAddress : Prop :=
  ∀ s : State,
    ((s.cfg.addrOverflow = .wrap ∨ s.regs[6] ≠ 255) →
      exec .ret s = .next { s with regs := s.regs.set 6 (s.regs[6] + 1), pc := s.memRead s.regs[6] }) ∧
    (s.cfg.addrOverflow = .fault → s.regs[6] = 255 →
      exec .ret s = .next (faultEntry s (.addressOverflow 256)))

/-- 44_alu.md R130: the ALU function on every tag and every pair of bytes, in every configuration. -/
def Obligations.AluComputesModulo256 : Prop :=
  ∀ a b : Byte,
    (∃ v, alu .add a b = .ok v ∧ v.toNat = (a.toNat + b.toNat) % 256) ∧
    (∃ v, alu .mul a b = .ok v ∧ v.toNat = (a.toNat * b.toNat) % 256) ∧
    (∀ tag, tag ≠ .add → tag ≠ .mul → alu tag a b = .error (.unsupportedAluOp tag))

/-- 44_alu.md R134: ADD and MUL are commutative on their two source values. -/
def Obligations.AluIsCommutative : Prop :=
  ∀ (tag : AluTag) (a b : Byte), alu tag a b = alu tag b a

/-! ## Frames -/

/-- LDI, MUL and ADD change no register but their destination (44_alu.md R131, 10_state.md R25), no memory
(20_memory.md R46) and no output; there are no flags (10_state.md R31). -/
def Obligations.FrameOfLdiMulAdd : Prop :=
  ∀ (i : Instr) (d : Byte) (s t : State),
    ((∃ v, i = .ldi d v) ∨ (∃ b, i = .mul d b) ∨ (∃ b, i = .add d b)) → exec i s = .next t →
      sameRegsExcept s t [d.toNat] ∧ sameMemory s t ∧ t.out = s.out ∧ sameControl s t

/-- PRN and HLT change no register and no memory (20_memory.md R46, 10_state.md R25). PRN changes the output only by the
byte of its register, appended (41_load_print.md R101; that the core emits the byte is the spec's own decision D13); HLT
(42_halt.md R110) changes no output, and of the fault record and `running` only what its halt or its fault entry
writes. -/
def Obligations.FrameOfPrnHlt : Prop :=
  ∀ (s t : State),
    (∀ r : Byte, exec (.prn r) s = .next t →
      sameRegsExcept s t [] ∧ sameMemory s t ∧ sameControl s t ∧
      (t.out = s.out ∨ ∃ h : r.toNat < 8, t.out = s.out ++ [s.regs[r.toNat]])) ∧
    (exec .hlt s = .next t →
      sameRegsExcept s t [] ∧ sameMemory s t ∧ t.out = s.out ∧ t.phase = s.phase ∧ t.cfg = s.cfg ∧
      t.running = false ∧ (t.fault = s.fault ∨ ∃ c, t = faultEntry s c))

/-- PUSH changes no register but SP, and of memory only the byte at the new SP; CALL no register but RSP, and only the
byte at the new RSP (20_memory.md R46, 43_stack.md R115, 45_subroutine.md R145). The address stored to is the one the
meaning computes; where it raises a fault nothing is stored. -/
def Obligations.FrameOfPushCall : Prop :=
  ∀ (r : Byte) (s t : State),
    (exec (.push r) s = .next t →
      sameRegsExcept s t [7] ∧ t.out = s.out ∧ sameControl s t ∧
      (∀ a, s.below (s.readReg spIndex) = .ok a → ∀ b, b ≠ a → t.memRead b = s.memRead b) ∧
      (∀ c, s.below (s.readReg spIndex) = .error c → sameMemory s t)) ∧
    (exec (.call r) s = .next t →
      sameRegsExcept s t [6] ∧ t.out = s.out ∧ sameControl s t ∧
      (∀ a, s.below (s.readReg rspIndex) = .ok a → ∀ b, b ≠ a → t.memRead b = s.memRead b) ∧
      (∀ c, s.below (s.readReg rspIndex) = .error c → sameMemory s t))

/-- POP changes no register but its destination and SP, RET none but RSP; both only read memory: the cell popped is not
cleared (43_stack.md R117, 45_subroutine.md R147, 20_memory.md R46). -/
def Obligations.FrameOfPopRet : Prop :=
  ∀ (s t : State),
    (∀ r : Byte, exec (.pop r) s = .next t →
      sameRegsExcept s t [r.toNat, 7] ∧ sameMemory s t ∧ t.out = s.out ∧ sameControl s t) ∧
    (exec .ret s = .next t →
      sameRegsExcept s t [6] ∧ sameMemory s t ∧ t.out = s.out ∧ sameControl s t)

/-! ## The step -/

/-- When the bytes from pc on decode to an instruction and its operand bytes can be fetched, the step is exec of that
instruction at that state; nothing is added around it (40_fetch_decode_execute.md R83, R85, R89). Three bytes are the
longest instruction; operand addresses wrap (decision D4), so the basis is derived. -/
def Obligations.StepRunsTheDecodedInstruction : Prop :=
  ∀ (s : State) (i : Instr) (rest : List Byte), s.Live → fits s (i.width - 1) →
    decode [s.memRead s.pc, s.memRead (s.pc + 1), s.memRead (s.pc + 2)] = .ok (i, rest) →
    step s = exec i s

/-- 40_fetch_decode_execute.md R82: an opcode byte that equals none of the nine patterns ends the step in IllegalOpcode,
and nothing but the fault record and `running` changes, wherever pc stands. -/
def Obligations.IllegalOpcodeEndsTheRun : Prop :=
  ∀ s : State, s.Live →
    s.memRead s.pc ∉ [0x82#8, 0x47#8, 0x01#8, 0x45#8, 0x46#8, 0xA2#8, 0xA0#8, 0x50#8, 0x11#8] →
    step s = .next (faultEntry s (.illegalOpcode (s.memRead s.pc)))

/-- 40_fetch_decode_execute.md R83, R164: under `ADDR_OVERFLOW = fault` (decision D4) an operand past address 255 raises
AddressOverflow at the first such operand, whose unreduced address is 256, before any register operand is checked. -/
def Obligations.OperandFetchOverflowComesFirst : Prop :=
  ∀ (s : State) (o : Opcode), s.Live → s.cfg.addrOverflow = .fault → s.memRead s.pc = o.byte →
    255 < s.pc.toNat + o.operandCount → step s = .next (faultEntry s (.addressOverflow 256))

/-- 40_fetch_decode_execute.md R80: no step when `running = false` or a fault is recorded. -/
def Obligations.StoppedMachineHasNoStep : Prop :=
  ∀ s : State, s.running = false ∨ s.fault ≠ none → ∀ t, step s ≠ .next t

/-- No step happens before the host's start (70_reset_and_hazards.md R180; decision D21, notes/assumptions/3.md), and a
machine that is started, running and with no fault recorded always has one (40_fetch_decode_execute.md R80). -/
def Obligations.StepsBeginAtStart : Prop :=
  ∀ s : State, (s.phase = .load → ∀ t, step s ≠ .next t) ∧ (s.Live → ∃ t, step s = .next t)

/-- No instruction is stopped on in any state or form: exec answers a next state, the effect or a fault entry
(40_fetch_decode_execute.md R88). -/
def Obligations.EveryInstructionAnswersANextState : Prop :=
  ∀ (i : Instr) (s : State), ∃ t, exec i s = .next t

/-- Faults are precise: a step that records a fault changes only the record and `running`
(40_fetch_decode_execute.md R88, 60_exceptions.md R162; the spec's own decision D10). -/
def Obligations.FaultsArePrecise : Prop :=
  ∀ s t : State, step s = .next t → t.fault ≠ none → ∃ c, t = faultEntry s c

/-- Under `ADDR_OVERFLOW = wrap` only IllegalOpcode and IllegalRegister are raised, and HLT and RET raise nothing
(60_exceptions.md R161, itself derived). -/
def Obligations.WrapRaisesOnlyTwoCauses : Prop :=
  ∀ s t : State, s.cfg.addrOverflow = .wrap → step s = .next t →
    (∀ r, t.fault = some r → r.cause = .illegalOpcode (s.memRead s.pc) ∨ ∃ b, 8 ≤ b.toNat ∧ r.cause = .illegalRegister b) ∧
    (s.memRead s.pc = 0x01#8 ∨ s.memRead s.pc = 0x11#8 → t.fault = none)

/-- No step raises UnsupportedAluOp (44_alu.md R135, itself derived). -/
def Obligations.NoStepRaisesUnsupportedAluOp : Prop :=
  ∀ (s t : State) (r : FaultRecord) (tag : AluTag), step s = .next t → t.fault = some r →
    r.cause ≠ .unsupportedAluOp tag

/-- A step clears `running` exactly when the opcode is HLT's or a fault is raised (40_fetch_decode_execute.md R90). -/
def Obligations.RunEndsOnlyByHaltOrFault : Prop :=
  ∀ s t : State, step s = .next t → (t.running = false ↔ s.memRead s.pc = 0x01#8 ∨ t.fault ≠ none)

/-- A step ends the run cleanly exactly when it executes an HLT, which it does at every pc but 255 under
`ADDR_OVERFLOW = fault`; it ends fatally exactly when a fault is recorded (70_reset_and_hazards.md R186,
42_halt.md R110, R111). -/
def Obligations.HaltAloneEndsARunCleanly : Prop :=
  ∀ s t : State, step s = .next t →
    (t.status.endedCleanly = true ↔
      s.memRead s.pc = 0x01#8 ∧ (s.cfg.addrOverflow = .wrap ∨ s.pc ≠ 255)) ∧
    (t.status.endedFatally = true ↔ t.fault ≠ none)

/-- 10_state.md R28: no instruction sets `running`; HLT and a fault clear it, and nothing else does; and no instruction
reads it: from the same state with another `running` the next state differs in `running` alone. -/
def Obligations.RunningFlagIsOnlyCleared : Prop :=
  ∀ (i : Instr) (s t : State), exec i s = .next t →
    (t.running = true → s.running = true) ∧
    (i = .hlt ∨ t.fault ≠ s.fault → t.running = false) ∧
    (t.running ≠ s.running → i = .hlt ∨ ∃ c, t = faultEntry s c) ∧
    (∀ b, ∃ b', exec i { s with running := b } = .next { t with running := b' })

/-- The output grows only by PRN, at its end, by the byte of the register named (10_state.md R30; the byte form is the
spec's own decision D13). -/
def Obligations.OutputGrowsOnlyByPrn : Prop :=
  ∀ s t : State, step s = .next t →
    t.out = s.out ∨
    (s.memRead s.pc = 0x47#8 ∧
      ∃ h : (s.memRead (s.pc + 1)).toNat < 8, t.out = s.out ++ [s.regs[(s.memRead (s.pc + 1)).toNat]])

/-- An instruction that is no control transfer and takes no fault advances pc by its own width, mod 256
(40_fetch_decode_execute.md R86; the wrap is decision D4). -/
def Obligations.SequentialPcAdvancesByWidth : Prop :=
  ∀ (i : Instr) (s t : State), ¬isTransfer i → exec i s = .next t →
    (∃ c, t = faultEntry s c) ∨ t.pc = s.pc + BitVec.ofNat 8 i.width

/-! ## Laws over two instructions -/

/-- 41_load_print.md R103 (itself derived): LDI Rd, v and then PRN Rd emits v; that what is emitted is the byte is the
spec's own decision D13. -/
def Obligations.LoadThenPrintEmitsImmediate : Prop :=
  ∀ (d v : Byte) (s : State), d.toNat < 8 → fits s 5 →
    ∃ t u, exec (.ldi d v) s = .next t ∧ exec (.prn d) t = .next u ∧ u.out = s.out ++ [v]

/-- 43_stack.md R119 (itself derived): PUSH Ra and then POP Rb, a and b in 0..6, neither faulting, gives x[b] the old
x[a] and restores SP. -/
def Obligations.PushThenPopRestores : Prop :=
  ∀ (a b : Fin 8) (s : State), a.val < 7 → b.val < 7 → fits s 4 →
    (s.cfg.addrOverflow = .wrap ∨ s.readReg spIndex ≠ 0) →
    ∃ t u, exec (.push (BitVec.ofNat 8 a.val)) s = .next t ∧ exec (.pop (BitVec.ofNat 8 b.val)) t = .next u ∧
      u.readReg b = s.readReg a ∧ u.readReg spIndex = s.readReg spIndex

/-- 45_subroutine.md R148 (itself derived): a RET executed when RSP and the byte at RSP are what a CALL left resumes
after that CALL, with RSP as before it. -/
def Obligations.RetResumesAfterItsCall : Prop :=
  ∀ (r : Byte) (s : State), r.toNat < 8 → fits s 2 →
    (s.cfg.addrOverflow = .wrap ∨ s.readReg rspIndex ≠ 0) →
    ∃ t, exec (.call r) s = .next t ∧
      ∀ u : State, u.cfg = s.cfg → u.readReg rspIndex = t.readReg rspIndex →
        u.memRead (t.readReg rspIndex) = t.memRead (t.readReg rspIndex) →
        ∃ v, exec .ret u = .next v ∧ v.pc = s.pc + 2 ∧ v.readReg rspIndex = s.readReg rspIndex

/-- 70_reset_and_hazards.md R188 (itself derived): with SP = RSP, a PUSH and then a CALL write the same cell; the pushed
byte is lost and the cell SP points at holds the return address. -/
def Obligations.OverlappingStacksLoseThePushedByte : Prop :=
  ∀ (r c : Byte) (s : State), r.toNat < 8 → c.toNat < 8 → s.cfg.addrOverflow = .wrap →
    s.readReg spIndex = s.readReg rspIndex →
    ∃ t u, exec (.push r) s = .next t ∧ exec (.call c) t = .next u ∧
      u.readReg spIndex = u.readReg rspIndex ∧ u.memRead (u.readReg spIndex) = s.pc + 4

/-- 20_memory.md R54 (itself derived): a byte stored by PUSH in the cell pc goes to is fetched by the very next step. -/
def Obligations.PushedByteIsFetchedNext : Prop :=
  ∀ (r : Fin 8) (s t : State), s.Live → s.cfg.addrOverflow = .wrap → r ≠ spIndex →
    s.pc + 2 = s.readReg spIndex - 1 → exec (.push (BitVec.ofNat 8 r.val)) s = .next t →
    (s.readReg r = 0x01#8 → step t = .next { t with running := false, pc := t.pc + 1 }) ∧
    (Opcode.ofByte? (s.readReg r) = none → step t = .next (faultEntry t (.illegalOpcode (s.readReg r))))

/-! ## Isolation of the two stacks -/

/-- Only CALL, RET and an instruction that names register 6 read or write RSP: any other computes the same with any RSP
and leaves it alone (43_stack.md R115, 10_state.md R25). -/
def Obligations.OthersNeitherReadNorWriteRsp : Prop :=
  ∀ (i : Instr) (v : Byte) (s t : State), ¬isTransfer i → 6#8 ∉ registerOperands i → exec i s = .next t →
    exec i (s.writeReg rspIndex v) = .next (t.writeReg rspIndex v)

/-- Only PUSH, POP and an instruction that names register 7 read or write SP (45_subroutine.md R145, 10_state.md R25). -/
def Obligations.OthersNeitherReadNorWriteSp : Prop :=
  ∀ (i : Instr) (v : Byte) (s t : State), (∀ r, i ≠ .push r ∧ i ≠ .pop r) → 7#8 ∉ registerOperands i →
    exec i s = .next t → exec i (s.writeReg spIndex v) = .next (t.writeReg spIndex v)

/-! ## Encoding -/

/-- Words written out from 30_encoding.md R65 and R61 decode to the instructions they stand for. -/
def Obligations.WrittenOutWordsDecode : Prop :=
  decode [0b10000010#8, 0b00000101#8, 0b11111111#8] = .ok (.ldi 5 255, []) ∧
  decode [0b01000111#8, 0b00000011#8] = .ok (.prn 3, []) ∧
  decode [0b00000001#8] = .ok (.hlt, []) ∧
  decode [0b01000110#8, 0b00000111#8] = .ok (.pop 7, []) ∧
  decode [0b10100010#8, 0b00000001#8, 0b00000010#8] = .ok (.mul 1 2, []) ∧
  decode [0b00010001#8] = .ok (.ret, [])

/-- 30_encoding.md R64: decode is an exact match of the whole opcode byte against the nine patterns: a byte is rejected
by name exactly when it is none of them, whatever follows, and a byte that is one of them gives an instruction with that
opcode as soon as two bytes follow, whatever they are. -/
def Obligations.DecodeMatchesTheWholeOpcode : Prop :=
  ∀ (op : Byte) (rest : List Byte),
    (decode (op :: rest) = .error (.illegalOpcode op) ↔
      op ∉ [0x82#8, 0x47#8, 0x01#8, 0x45#8, 0x46#8, 0xA2#8, 0xA0#8, 0x50#8, 0x11#8]) ∧
    (op ∈ [0x82#8, 0x47#8, 0x01#8, 0x45#8, 0x46#8, 0xA2#8, 0xA0#8, 0x50#8, 0x11#8] → 2 ≤ rest.length →
      ∃ i left, decode (op :: rest) = .ok (i, left) ∧ i.opcode.byte = op)

/-- Decode and encode agree in both directions, for every instruction, every operand byte and every continuation:
nothing is dropped, and each instruction has one encoding (30_encoding.md R60, R61, R65). -/
def Obligations.DecodeInvertsEncode : Prop :=
  ∀ (bs rest : List Byte) (i : Instr), decode bs = .ok (i, rest) ↔ bs = encode i ++ rest

/-- A sequence of bytes is the encoding of at most one sequence of instructions (30_encoding.md R60, R68). -/
def Obligations.InstructionStreamsDecodeUniquely : Prop :=
  ∀ is js : List Instr, is.flatMap encode = js.flatMap encode → is = js

/-! ## Reset, load and the invariant -/

/-- 10_state.md R34, for every `SP_INIT` and `RSP_INIT`. That these are parameters, and that the fault record starts at
none, are the spec's own decisions D7, D8 and D9, so the basis is derived; `State.reset` is this state in the
configuration it carries (notes/assumptions/1.md). -/
def Obligations.ResetLeavesTheStatedValues : Prop :=
  State.reset = State.resetWith State.reset.cfg ∧
  ∀ cfg : Config,
    (∀ a, (State.resetWith cfg).memRead a = 0) ∧
    (∀ j : Fin 8, j.val < 6 → (State.resetWith cfg).readReg j = 0) ∧
    (State.resetWith cfg).readReg rspIndex = cfg.rspInit ∧
    (State.resetWith cfg).readReg spIndex = cfg.spInit ∧
    (State.resetWith cfg).pc = 0 ∧ (State.resetWith cfg).running = true ∧
    (State.resetWith cfg).fault = none ∧ (State.resetWith cfg).out = []

/-- In the load phase a program of at most 256 bytes is stored from address 0, and nothing but memory changes
(70_reset_and_hazards.md R181); a longer one is refused (the spec's own decision D16), and after start every load is.
R181 says what the first load after reset leaves. That clause 1 holds in every state of the load phase, so of a second load
too, which keeps the cells its own program does not reach, is the model's choice (notes/assumptions/7.md, DESIGN CHOICE).
That a load after start is refused, and by that name, is read from R185's 'load phase only' (the same entry, DEDUCED). -/
def Obligations.LoadStoresTheProgramFromZero : Prop :=
  ∀ (s : State) (p : List Byte),
    (s.phase = .load → p.length ≤ 256 →
      ∃ t, s.hostEvent (.load p) = .ok t ∧ t = { s with mem := t.mem } ∧
        ∀ a : Byte, t.memRead a = (p[a.toNat]?).getD (s.memRead a)) ∧
    (s.phase = .load → 256 < p.length → s.hostEvent (.load p) = .error (.programTooLong p.length)) ∧
    (s.phase = .run → s.hostEvent (.load p) = .error .notInLoadPhase)

/-- 70_reset_and_hazards.md R180, R183: after reset, load and start the first instruction run is the one at address 0.
That steps begin at start is decision D21 (notes/assumptions/3.md). -/
def Obligations.FirstInstructionIsAtAddressZero : Prop :=
  ∀ (cfg : Config) (i : Instr) (rest : List Byte), (encode i ++ rest).length ≤ 256 →
    ∃ s, boot cfg (encode i ++ rest) = .ok s ∧ s.pc = 0 ∧ step s = exec i s

/-- The program text of one eight-digit line a byte is read as those bytes (30_encoding.md R70; that a line is digits 0
and 1 only is notes/assumptions/8.md). This is about reading the text, so it holds of a list of any length; storing the
bytes is the load event, which refuses more than 256 (R181, LoadStoresTheProgramFromZero). -/
def Obligations.BinaryProgramTextLoads : Prop :=
  ∀ p : List Byte, loadText (some (p.flatMap binaryLine)) = .ok p

/-- The invariant holds at reset, in every configuration. -/
def Obligations.ResetMeetsTheInvariant : Prop :=
  State.reset.Inv ∧ ∀ cfg : Config, (State.resetWith cfg).Inv

/-- Every step keeps the invariant: memory stays canonical; a recorded fault has stopped the run at the address pc still
holds, and is true of the state (40_fetch_decode_execute.md R82, R84, R88, R92; 60_exceptions.md R160, R162). -/
def Obligations.StepKeepsTheInvariant : Prop :=
  ∀ s t : State, s.Inv → step s = .next t → t.Inv

/-- Every event from the host keeps the invariant (70_reset_and_hazards.md R180, R181, R185). -/
def Obligations.HostEventsKeepTheInvariant : Prop :=
  ∀ (s t : State) (e : HostEvent), s.Inv → s.hostEvent e = .ok t → t.Inv
end

