-- ==== Sys2Proof/Laws/Decode.lean ====
section
/-! SUPPORT. The laws of the opcode map and of decode and encode. -/

namespace Sys2Proof

/-- The map has no two rows for one byte (30_encoding.md R65). -/
theorem Opcode.byte_injective {o o' : Opcode} (h : o.byte = o'.byte) : o = o' := by
  revert h; cases o <;> cases o' <;> decide

@[simp] theorem Opcode.ofByte?_byte (o : Opcode) : Opcode.ofByte? o.byte = some o := by
  cases o <;> decide

/-- Decode of the opcode byte is an exact match (R64). -/
theorem Opcode.ofByte?_eq_some_iff {b : Byte} {o : Opcode} : Opcode.ofByte? b = some o ↔ o.byte = b := by
  constructor
  · intro h
    simpa using List.find?_some h
  · rintro rfl
    simp

theorem Opcode.ofByte?_eq_none_iff {b : Byte} : Opcode.ofByte? b = none ↔ ∀ o : Opcode, o.byte ≠ b := by
  rw [Option.eq_none_iff_forall_ne_some]
  exact forall_congr' fun o => not_congr Opcode.ofByte?_eq_some_iff

/-- The illegal opcode bytes, written out: none of the nine patterns of R65. -/
theorem Opcode.ofByte?_eq_none_iff_not_mem {b : Byte} :
    Opcode.ofByte? b = none ↔ b ∉ [0x82#8, 0x47#8, 0x01#8, 0x45#8, 0x46#8, 0xA2#8, 0xA0#8, 0x50#8, 0x11#8] := by
  rw [Opcode.ofByte?_eq_none_iff]
  constructor
  · intro h hb
    simp only [List.mem_cons, List.not_mem_nil, or_false] at hb
    rcases hb with rfl | rfl | rfl | rfl | rfl | rfl | rfl | rfl | rfl
    exacts [h .ldi rfl, h .prn rfl, h .hlt rfl, h .push rfl, h .pop rfl, h .mul rfl, h .add rfl, h .call rfl, h .ret rfl]
  · rintro h o rfl
    revert h
    cases o <;> decide

/-- Assembling takes exactly the operand bytes of the instruction it gives. -/
theorem Opcode.assemble_eq_some_iff {o : Opcode} {bs rest : List Byte} {i : Instr} :
    o.assemble bs = some (i, rest) ↔ i.opcode = o ∧ bs = i.operands ++ rest := by
  constructor
  · intro h
    unfold Opcode.assemble at h
    split at h <;> simp_all <;> obtain ⟨rfl, rfl⟩ := h <;> exact ⟨rfl, rfl⟩
  · rintro ⟨rfl, rfl⟩
    cases i <;> rfl

theorem Instr.operands_length (i : Instr) : i.operands.length = i.opcode.operandCount := by
  cases i <;> rfl

/-- As many bytes as the opcode takes assemble to an instruction and leave none. -/
theorem Opcode.assemble_of_length {o : Opcode} {bs : List Byte} (h : bs.length = o.operandCount) :
    ∃ i : Instr, o.assemble bs = some (i, []) ∧ i.opcode = o ∧ i.operands = bs := by
  have : ∃ i : Instr, i.opcode = o ∧ i.operands = bs := by
    cases o <;> simp only [Opcode.operandCount, List.length_eq_zero_iff, List.length_eq_one_iff, List.length_eq_two] at h
    · obtain ⟨a, b, rfl⟩ := h; exact ⟨.ldi a b, rfl, rfl⟩
    · obtain ⟨a, rfl⟩ := h; exact ⟨.prn a, rfl, rfl⟩
    · exact ⟨.hlt, rfl, h.symm⟩
    · obtain ⟨a, rfl⟩ := h; exact ⟨.push a, rfl, rfl⟩
    · obtain ⟨a, rfl⟩ := h; exact ⟨.pop a, rfl, rfl⟩
    · obtain ⟨a, b, rfl⟩ := h; exact ⟨.mul a b, rfl, rfl⟩
    · obtain ⟨a, b, rfl⟩ := h; exact ⟨.add a b, rfl, rfl⟩
    · obtain ⟨a, rfl⟩ := h; exact ⟨.call a, rfl, rfl⟩
    · exact ⟨.ret, rfl, h.symm⟩
  obtain ⟨i, hi, hb⟩ := this
  exact ⟨i, Opcode.assemble_eq_some_iff.2 ⟨hi, by simp [hb]⟩, hi, hb⟩

end Sys2Proof
end

