-- ==== Sys2Proof/Laws/State.lean ====
section
/-! SUPPORT. What each update of State leaves in each field, and what the readers see after each update: no later proof
unfolds a record update. -/

namespace Sys2Proof.Machine

variable (s : State)

/-! ## memWrite -/

@[simp] theorem State.memWrite_mem (a v : Byte) : (s.memWrite a v).mem = Memory.write s.mem a.toNat v := rfl
@[simp] theorem State.memWrite_regs (a v : Byte) : (s.memWrite a v).regs = s.regs := rfl
@[simp] theorem State.memWrite_pc (a v : Byte) : (s.memWrite a v).pc = s.pc := rfl
@[simp] theorem State.memWrite_running (a v : Byte) : (s.memWrite a v).running = s.running := rfl
@[simp] theorem State.memWrite_fault (a v : Byte) : (s.memWrite a v).fault = s.fault := rfl
@[simp] theorem State.memWrite_out (a v : Byte) : (s.memWrite a v).out = s.out := rfl
@[simp] theorem State.memWrite_phase (a v : Byte) : (s.memWrite a v).phase = s.phase := rfl
@[simp] theorem State.memWrite_cfg (a v : Byte) : (s.memWrite a v).cfg = s.cfg := rfl
@[simp] theorem State.memWrite_readReg (a v : Byte) (j : Fin 8) : (s.memWrite a v).readReg j = s.readReg j := rfl

/-! ## writeReg -/

@[simp] theorem State.writeReg_mem (i : Fin 8) (v : Byte) : (s.writeReg i v).mem = s.mem := rfl
@[simp] theorem State.writeReg_regs (i : Fin 8) (v : Byte) : (s.writeReg i v).regs = s.regs.set i v := rfl
@[simp] theorem State.writeReg_pc (i : Fin 8) (v : Byte) : (s.writeReg i v).pc = s.pc := rfl
@[simp] theorem State.writeReg_running (i : Fin 8) (v : Byte) : (s.writeReg i v).running = s.running := rfl
@[simp] theorem State.writeReg_fault (i : Fin 8) (v : Byte) : (s.writeReg i v).fault = s.fault := rfl
@[simp] theorem State.writeReg_out (i : Fin 8) (v : Byte) : (s.writeReg i v).out = s.out := rfl
@[simp] theorem State.writeReg_phase (i : Fin 8) (v : Byte) : (s.writeReg i v).phase = s.phase := rfl
@[simp] theorem State.writeReg_cfg (i : Fin 8) (v : Byte) : (s.writeReg i v).cfg = s.cfg := rfl
@[simp] theorem State.writeReg_memRead (i : Fin 8) (v : Byte) (b : Byte) : (s.writeReg i v).memRead b = s.memRead b := rfl

/-! ## setPc -/

@[simp] theorem State.setPc_mem (a : Byte) : (s.setPc a).mem = s.mem := rfl
@[simp] theorem State.setPc_regs (a : Byte) : (s.setPc a).regs = s.regs := rfl
@[simp] theorem State.setPc_pc (a : Byte) : (s.setPc a).pc = a := rfl
@[simp] theorem State.setPc_running (a : Byte) : (s.setPc a).running = s.running := rfl
@[simp] theorem State.setPc_fault (a : Byte) : (s.setPc a).fault = s.fault := rfl
@[simp] theorem State.setPc_out (a : Byte) : (s.setPc a).out = s.out := rfl
@[simp] theorem State.setPc_phase (a : Byte) : (s.setPc a).phase = s.phase := rfl
@[simp] theorem State.setPc_cfg (a : Byte) : (s.setPc a).cfg = s.cfg := rfl
@[simp] theorem State.setPc_readReg (a : Byte) (j : Fin 8) : (s.setPc a).readReg j = s.readReg j := rfl
@[simp] theorem State.setPc_memRead (a : Byte) (b : Byte) : (s.setPc a).memRead b = s.memRead b := rfl

/-! ## emit -/

@[simp] theorem State.emit_mem (v : Byte) : (s.emit v).mem = s.mem := rfl
@[simp] theorem State.emit_regs (v : Byte) : (s.emit v).regs = s.regs := rfl
@[simp] theorem State.emit_pc (v : Byte) : (s.emit v).pc = s.pc := rfl
@[simp] theorem State.emit_running (v : Byte) : (s.emit v).running = s.running := rfl
@[simp] theorem State.emit_fault (v : Byte) : (s.emit v).fault = s.fault := rfl
@[simp] theorem State.emit_out (v : Byte) : (s.emit v).out = s.out ++ [v] := rfl
@[simp] theorem State.emit_phase (v : Byte) : (s.emit v).phase = s.phase := rfl
@[simp] theorem State.emit_cfg (v : Byte) : (s.emit v).cfg = s.cfg := rfl
@[simp] theorem State.emit_readReg (v : Byte) (j : Fin 8) : (s.emit v).readReg j = s.readReg j := rfl
@[simp] theorem State.emit_memRead (v : Byte) (b : Byte) : (s.emit v).memRead b = s.memRead b := rfl

/-! ## stopRunning -/

@[simp] theorem State.stopRunning_mem : (s.stopRunning).mem = s.mem := rfl
@[simp] theorem State.stopRunning_regs : (s.stopRunning).regs = s.regs := rfl
@[simp] theorem State.stopRunning_pc : (s.stopRunning).pc = s.pc := rfl
@[simp] theorem State.stopRunning_running : (s.stopRunning).running = false := rfl
@[simp] theorem State.stopRunning_fault : (s.stopRunning).fault = s.fault := rfl
@[simp] theorem State.stopRunning_out : (s.stopRunning).out = s.out := rfl
@[simp] theorem State.stopRunning_phase : (s.stopRunning).phase = s.phase := rfl
@[simp] theorem State.stopRunning_cfg : (s.stopRunning).cfg = s.cfg := rfl
@[simp] theorem State.stopRunning_readReg (j : Fin 8) : (s.stopRunning).readReg j = s.readReg j := rfl
@[simp] theorem State.stopRunning_memRead (b : Byte) : (s.stopRunning).memRead b = s.memRead b := rfl

/-! ## raise -/

@[simp] theorem State.raise_mem (c : FaultCause) : (s.raise c).mem = s.mem := rfl
@[simp] theorem State.raise_regs (c : FaultCause) : (s.raise c).regs = s.regs := rfl
@[simp] theorem State.raise_pc (c : FaultCause) : (s.raise c).pc = s.pc := rfl
@[simp] theorem State.raise_running (c : FaultCause) : (s.raise c).running = false := rfl
@[simp] theorem State.raise_fault (c : FaultCause) : (s.raise c).fault = some { cause := c, faultPc := s.pc } := rfl
@[simp] theorem State.raise_out (c : FaultCause) : (s.raise c).out = s.out := rfl
@[simp] theorem State.raise_phase (c : FaultCause) : (s.raise c).phase = s.phase := rfl
@[simp] theorem State.raise_cfg (c : FaultCause) : (s.raise c).cfg = s.cfg := rfl
@[simp] theorem State.raise_readReg (c : FaultCause) (j : Fin 8) : (s.raise c).readReg j = s.readReg j := rfl
@[simp] theorem State.raise_memRead (c : FaultCause) (b : Byte) : (s.raise c).memRead b = s.memRead b := rfl

/-! ## Reading a register after writing one -/

theorem State.readReg_writeReg (i j : Fin 8) (v : Byte) :
    (s.writeReg i v).readReg j = if j = i then v else s.readReg j := by
  simp only [State.readReg, State.writeReg, Vector.get_eq_getElem, Vector.getElem_set, Fin.ext_iff]
  exact if_congr eq_comm rfl rfl

@[simp] theorem State.readReg_writeReg_same (i : Fin 8) (v : Byte) : (s.writeReg i v).readReg i = v := by
  simp [State.readReg_writeReg]

theorem State.readReg_writeReg_of_ne {i j : Fin 8} (h : j ≠ i) (v : Byte) :
    (s.writeReg i v).readReg j = s.readReg j := by
  simp [State.readReg_writeReg, h]

/-- Writes to two registers commute. -/
theorem State.writeReg_comm {i j : Fin 8} (h : i ≠ j) (v w : Byte) :
    (s.writeReg i v).writeReg j w = (s.writeReg j w).writeReg i v := by
  have hv : i.val ≠ j.val := fun h' => h (Fin.ext h')
  simp [State.writeReg, Vector.set_comm _ _ hv]

/-- Two states with the same registers have the same register file. -/
theorem regs_ext {t : State} (h : ∀ i, s.readReg i = t.readReg i) : s.regs = t.regs :=
  Vector.ext fun i hi => h ⟨i, hi⟩

/-! ## Whether the machine has a step -/

theorem State.stopReason_eq_none_iff :
    s.stopReason = none ↔ s.phase = .run ∧ s.fault = none ∧ s.running = true := by
  unfold State.stopReason
  split <;> simp_all

end Sys2Proof.Machine
end

