-- ==== Sys2Proof/Laws/Ops.lean ====
section
/-! SUPPORT. One law for each shared operation, which says once everything it can do. -/

namespace Sys2Proof.Machine

/-! ## The check phase -/

@[simp] theorem ok_bind {α β : Type} (a : α) (f : α → Except FaultCause β) : (Except.ok a >>= f) = f a := rfl

@[simp] theorem error_bind {α β : Type} (c : FaultCause) (f : α → Except FaultCause β) :
    ((Except.error c : Except FaultCause α) >>= f) = .error c := rfl

@[simp] theorem pure_eq_ok {α : Type} (a : α) : (pure a : Except FaultCause α) = .ok a := rfl

@[simp] theorem State.complete_ok (s t : State) : s.complete (.ok t) = .next t := rfl

@[simp] theorem State.complete_error (s : State) (c : FaultCause) : s.complete (.error c) = .next (s.raise c) := rfl

/-- A handler always ends in a next state: its commit phase or its fault entry (40_fetch_decode_execute.md R88). -/
theorem State.complete_cases (s : State) (h : Except FaultCause State) :
    (∃ t, h = .ok t ∧ s.complete h = .next t) ∨ (∃ c, h = .error c ∧ s.complete h = .next (s.raise c)) := by
  cases h with
  | ok t => exact .inl ⟨t, rfl, rfl⟩
  | error c => exact .inr ⟨c, rfl, rfl⟩

/-! ## Addr8 (00_scope.md R11) -/

theorem addr8_of_range {mode : AddrOverflow} {v : Int} (h : 0 ≤ v ∧ v ≤ 255) :
    addr8 mode v = .ok (BitVec.ofInt 8 v) := by
  simp [addr8, h]

@[simp] theorem addr8_wrap (v : Int) : addr8 .wrap v = .ok (BitVec.ofInt 8 v) := by
  simp [addr8]

theorem addr8_fault_of_not_range {v : Int} (h : ¬(0 ≤ v ∧ v ≤ 255)) :
    addr8 .fault v = .error (.addressOverflow v) := by
  simp only [addr8, if_neg h]

/-- Everything Addr8 can do: it gives the value mod 256, or it raises AddressOverflow, and then only for a value outside
0..255 under `ADDR_OVERFLOW = fault`. -/
theorem addr8_cases (mode : AddrOverflow) (v : Int) :
    addr8 mode v = .ok (BitVec.ofInt 8 v) ∨
    (addr8 mode v = .error (.addressOverflow v) ∧ mode = .fault ∧ ¬(0 ≤ v ∧ v ≤ 255)) := by
  by_cases h : 0 ≤ v ∧ v ≤ 255
  · exact .inl (addr8_of_range h)
  · cases mode
    · exact .inl (addr8_wrap v)
    · exact .inr ⟨addr8_fault_of_not_range h, rfl, h⟩

theorem ofInt_toNat_add (b : Byte) (k : Nat) : BitVec.ofInt 8 ((b.toNat : Int) + k) = b + BitVec.ofNat 8 k := by
  rw [← Int.natCast_add, BitVec.ofInt_natCast, BitVec.ofNat_add]
  simp

theorem ofInt_toNat_sub_one (b : Byte) : BitVec.ofInt 8 ((b.toNat : Int) - 1) = b - 1 := by
  apply BitVec.eq_of_toNat_eq
  have := b.isLt
  rw [BitVec.toNat_ofInt, BitVec.toNat_sub]
  simp only [show (1 : Byte).toNat = 1 from rfl, Nat.reducePow]
  omega

/-- `Addr8(pc + k)`: pc plus k mod 256, or AddressOverflow. -/
theorem State.pcPlus_cases (s : State) (k : Nat) :
    s.pcPlus k = .ok (s.pc + BitVec.ofNat 8 k) ∨
    (s.pcPlus k = .error (.addressOverflow (s.pc.toNat + k)) ∧ s.cfg.addrOverflow = .fault ∧ 255 < s.pc.toNat + k) := by
  rw [← ofInt_toNat_add]
  rcases addr8_cases s.cfg.addrOverflow (s.pc.toNat + k) with h | ⟨h, hm, hr⟩
  · exact .inl h
  · exact .inr ⟨h, hm, by omega⟩

theorem State.pcPlus_ok {s : State} {k : Nat} (h : s.cfg.addrOverflow = .wrap ∨ s.pc.toNat + k ≤ 255) :
    s.pcPlus k = .ok (s.pc + BitVec.ofNat 8 k) := by
  rcases s.pcPlus_cases k with h' | ⟨_, hm, hr⟩
  · exact h'
  · rcases h with h | h
    · simp [h] at hm
    · omega

theorem State.pcPlus_overflow {s : State} {k : Nat} (hm : s.cfg.addrOverflow = .fault) (h : 255 < s.pc.toNat + k) :
    s.pcPlus k = .error (.addressOverflow (s.pc.toNat + k)) := by
  unfold State.pcPlus
  rw [hm]
  exact addr8_fault_of_not_range (by omega)

/-- `Addr8(p - 1)`: p minus 1 mod 256, or AddressOverflow of -1. -/
theorem State.below_cases (s : State) (p : Byte) :
    s.below p = .ok (p - 1) ∨
    (s.below p = .error (.addressOverflow (-1)) ∧ s.cfg.addrOverflow = .fault ∧ p = 0) := by
  rw [← ofInt_toNat_sub_one]
  rcases addr8_cases s.cfg.addrOverflow (p.toNat - 1) with h | ⟨h, hm, hr⟩
  · exact .inl h
  · have hp : p.toNat = 0 := by omega
    exact .inr ⟨by rw [State.below, h, hp]; rfl, hm, BitVec.toNat_inj.1 hp⟩

theorem State.below_ok {s : State} {p : Byte} (h : s.cfg.addrOverflow = .wrap ∨ p ≠ 0) : s.below p = .ok (p - 1) := by
  rcases s.below_cases p with h' | ⟨_, hm, hp⟩
  · exact h'
  · rcases h with h | h
    · simp [h] at hm
    · exact absurd hp h

theorem State.below_overflow {s : State} (hm : s.cfg.addrOverflow = .fault) :
    s.below 0 = .error (.addressOverflow (-1)) := by
  unfold State.below
  rw [hm]
  exact addr8_fault_of_not_range (by decide)

/-- `Addr8(p + 1)`: p plus 1 mod 256, or AddressOverflow of 256. -/
theorem State.above_cases (s : State) (p : Byte) :
    s.above p = .ok (p + 1) ∨
    (s.above p = .error (.addressOverflow 256) ∧ s.cfg.addrOverflow = .fault ∧ p = 255) := by
  have hadd : BitVec.ofInt 8 ((p.toNat : Int) + 1) = p + 1 := ofInt_toNat_add p 1
  rw [← hadd]
  rcases addr8_cases s.cfg.addrOverflow (p.toNat + 1) with h | ⟨h, hm, hr⟩
  · exact .inl h
  · have hp : p.toNat = 255 := by have := p.isLt; omega
    exact .inr ⟨by rw [State.above, h, hp]; rfl, hm, BitVec.toNat_inj.1 hp⟩

theorem State.above_ok {s : State} {p : Byte} (h : s.cfg.addrOverflow = .wrap ∨ p ≠ 255) : s.above p = .ok (p + 1) := by
  rcases s.above_cases p with h' | ⟨_, hm, hp⟩
  · exact h'
  · rcases h with h | h
    · simp [h] at hm
    · exact absurd hp h

theorem State.above_overflow {s : State} (hm : s.cfg.addrOverflow = .fault) :
    s.above 255 = .error (.addressOverflow 256) := by
  unfold State.above
  rw [hm]
  exact addr8_fault_of_not_range (by decide)

/-! ## RegIdx (00_scope.md R11) -/

theorem regIdx_ok {b : Byte} (h : b.toNat < 8) : regIdx b = .ok ⟨b.toNat, h⟩ := by
  simp [regIdx, h]

theorem regIdx_illegal {b : Byte} (h : 8 ≤ b.toNat) : regIdx b = .error (.illegalRegister b) := by
  simp [regIdx, Nat.not_lt.2 h]

/-- Everything RegIdx can do. -/
theorem regIdx_cases (b : Byte) :
    (∃ h : b.toNat < 8, regIdx b = .ok ⟨b.toNat, h⟩) ∨ (8 ≤ b.toNat ∧ regIdx b = .error (.illegalRegister b)) := by
  rcases Nat.lt_or_ge b.toNat 8 with h | h
  · exact .inl ⟨h, regIdx_ok h⟩
  · exact .inr ⟨h, regIdx_illegal h⟩

/-! ## Loading bytes -/

@[simp] theorem State.storeBytes_regs (s : State) (a : Byte) (bs : List Byte) : (s.storeBytes a bs).regs = s.regs := by
  induction bs generalizing s a with
  | nil => rfl
  | cons b bs ih => exact ih ..

@[simp] theorem State.storeBytes_pc (s : State) (a : Byte) (bs : List Byte) : (s.storeBytes a bs).pc = s.pc := by
  induction bs generalizing s a with
  | nil => rfl
  | cons b bs ih => exact ih ..

/-- Storing bytes changes nothing but memory. -/
theorem State.storeBytes_eq (s : State) (a : Byte) (bs : List Byte) :
    s.storeBytes a bs = { s with mem := (s.storeBytes a bs).mem } := by
  induction bs generalizing s a with
  | nil => rfl
  | cons b bs ih => exact ih ..

/-- Bytes stored from `a` on without passing the end of memory: each lands in its own cell, and every other cell keeps
its byte. -/
theorem State.storeBytes_read (s : State) (a : Nat) (bs : List Byte) (h : a + bs.length ≤ 256) (c : Byte) :
    (s.storeBytes (BitVec.ofNat 8 a) bs).memRead c =
      if a ≤ c.toNat then (bs[c.toNat - a]?).getD (s.memRead c) else s.memRead c := by
  induction bs generalizing s a with
  | nil => simp [State.storeBytes]
  | cons b bs ih =>
    simp only [List.length_cons] at h
    have hsucc : BitVec.ofNat 8 a + 1 = BitVec.ofNat 8 (a + 1) := (BitVec.ofNat_add a 1).symm
    have ha : (BitVec.ofNat 8 a).toNat = a := by rw [BitVec.toNat_ofNat, Nat.mod_eq_of_lt (by omega)]
    rw [State.storeBytes, hsucc, ih _ (a + 1) (by omega)]
    have hw : (s.memWrite (BitVec.ofNat 8 a) b).memRead c = if c.toNat = a then b else s.memRead c := by
      simp [State.memRead, State.memWrite, Memory.read_write, ha]
    rw [hw]
    rcases Nat.lt_trichotomy c.toNat a with hlt | heq | hgt
    · simp [Nat.not_le.2 hlt, show ¬ (a + 1 ≤ c.toNat) by omega, hlt.ne]
    · simp [heq]
    · have hk : c.toNat - a = (c.toNat - (a + 1)) + 1 := by omega
      simp [show a + 1 ≤ c.toNat from hgt, hgt.le, hgt.ne', hk]

end Sys2Proof.Machine
end

