-- ==== Sys2Proof/Laws/Exec.lean ====
section
/-! SUPPORT. What the operations that the meanings share can do. -/

namespace Sys2Proof.Machine

/-! ## The commit phase of PUSH (43_stack.md R116) -/

@[simp] theorem State.pushReg_pc (s : State) (spn : Byte) (r : Fin 8) : (s.pushReg spn r).pc = s.pc := rfl
@[simp] theorem State.pushReg_running (s : State) (spn : Byte) (r : Fin 8) : (s.pushReg spn r).running = s.running := rfl
@[simp] theorem State.pushReg_fault (s : State) (spn : Byte) (r : Fin 8) : (s.pushReg spn r).fault = s.fault := rfl
@[simp] theorem State.pushReg_out (s : State) (spn : Byte) (r : Fin 8) : (s.pushReg spn r).out = s.out := rfl
@[simp] theorem State.pushReg_phase (s : State) (spn : Byte) (r : Fin 8) : (s.pushReg spn r).phase = s.phase := rfl
@[simp] theorem State.pushReg_cfg (s : State) (spn : Byte) (r : Fin 8) : (s.pushReg spn r).cfg = s.cfg := rfl
@[simp] theorem State.pushReg_regs (s : State) (spn : Byte) (r : Fin 8) :
    (s.pushReg spn r).regs = (s.writeReg spIndex spn).regs := rfl

@[simp] theorem State.pushReg_readReg (s : State) (spn : Byte) (r j : Fin 8) :
    (s.pushReg spn r).readReg j = if j = spIndex then spn else s.readReg j :=
  State.readReg_writeReg s spIndex j spn

/-- The byte a PUSH stores is the register as it stands after SP was decremented, and no other cell changes. -/
theorem State.pushReg_memRead (s : State) (spn : Byte) (r : Fin 8) (a : Byte) :
    (s.pushReg spn r).memRead a = if a = spn then (if r = spIndex then spn else s.readReg r) else s.memRead a := by
  simp [State.pushReg, State.memRead_memWrite, State.readReg_writeReg]

theorem State.pushReg_wf {s : State} (h : s.mem.wf = true) (spn : Byte) (r : Fin 8) :
    (s.pushReg spn r).mem.wf = true :=
  State.memWrite_wf (s := s.writeReg spIndex spn) h _ _

/-! ## The ALU (44_alu.md R130, R131) -/

/-- The ALU raises a fault for no tag that an instruction gives it. -/
theorem alu_cases (tag : AluTag) (a b : Byte) :
    (tag = .add ∧ alu tag a b = .ok (a + b)) ∨ (tag = .mul ∧ alu tag a b = .ok (a * b)) ∨
    (∃ n, tag = .other n ∧ alu tag a b = .error (.unsupportedAluOp tag)) := by
  cases tag with
  | add => exact .inl ⟨rfl, congrArg Except.ok (by rw [BitVec.ofNat_add]; simp)⟩
  | mul => exact .inr (.inl ⟨rfl, congrArg Except.ok (by rw [BitVec.ofNat_mul]; simp)⟩)
  | other n => exact .inr (.inr ⟨n, rfl, rfl⟩)

/-- Everything an ALU instruction can do with a value of the ALU: an illegal register byte, operand 1 before operand 2;
an overflow of pc; or the result in x[a]. -/
theorem State.aluInstr_cases (s : State) (tag : AluTag) (regA regB : Byte)
    (htag : ∀ a b, ∃ v, alu tag a b = .ok v) :
    (8 ≤ regA.toNat ∧ s.aluInstr tag regA regB = .error (.illegalRegister regA)) ∨
    (regA.toNat < 8 ∧ 8 ≤ regB.toNat ∧ s.aluInstr tag regA regB = .error (.illegalRegister regB)) ∨
    (regA.toNat < 8 ∧ regB.toNat < 8 ∧ s.cfg.addrOverflow = .fault ∧ 255 < s.pc.toNat + 3 ∧
      s.aluInstr tag regA regB = .error (.addressOverflow (s.pc.toNat + 3))) ∨
    (∃ (ha : regA.toNat < 8) (hb : regB.toNat < 8) (v : Byte),
      alu tag (s.readReg ⟨regA.toNat, ha⟩) (s.readReg ⟨regB.toNat, hb⟩) = .ok v ∧
      s.aluInstr tag regA regB = .ok ((s.writeReg ⟨regA.toNat, ha⟩ v).setPc (s.pc + 3))) := by
  rcases regIdx_cases regA with ⟨ha, hra⟩ | ⟨ha, hra⟩
  · rcases regIdx_cases regB with ⟨hb, hrb⟩ | ⟨hb, hrb⟩
    · obtain ⟨v, hv⟩ := htag (s.readReg ⟨regA.toNat, ha⟩) (s.readReg ⟨regB.toNat, hb⟩)
      rcases s.pcPlus_cases 3 with hp | ⟨hp, hm, hr⟩
      · exact .inr (.inr (.inr ⟨ha, hb, v, hv, by simp [State.aluInstr, hra, hrb, hv, hp]⟩))
      · exact .inr (.inr (.inl ⟨ha, hb, hm, hr, by simp [State.aluInstr, hra, hrb, hv, hp]⟩))
    · exact .inr (.inl ⟨ha, hb, by simp [State.aluInstr, hra, hrb]⟩)
  · exact .inl ⟨ha, by simp [State.aluInstr, hra]⟩

end Sys2Proof.Machine
end

