-- ==== Sys2Proof/Laws/Fetch.lean ====
section
/-! SUPPORT. What a fetch and a step can do. -/

namespace Sys2Proof.Machine

/-- A byte that can be fetched is the byte at pc + k mod 256 (40_fetch_decode_execute.md R83). -/
theorem State.operandByte_ok {s : State} {k : Nat} (h : s.cfg.addrOverflow = .wrap ∨ s.pc.toNat + k ≤ 255) :
    s.operandByte k = .ok (s.memRead (s.pc + BitVec.ofNat 8 k)) := by
  simp [State.operandByte, State.pcPlus_ok h]

/-- Everything an operand fetch can do. -/
theorem State.operandBytes_cases (s : State) (k n : Nat) :
    s.operandBytes k n = .ok ((List.range' k n).map fun j => s.memRead (s.pc + BitVec.ofNat 8 j)) ∧
      (s.cfg.addrOverflow = .wrap ∨ n = 0 ∨ s.pc.toNat + (k + n - 1) ≤ 255) ∨
    ∃ j, k ≤ j ∧ j < k + n ∧ (∀ j', k ≤ j' → j' < j → s.pc.toNat + j' ≤ 255) ∧ 255 < s.pc.toNat + j ∧
      s.cfg.addrOverflow = .fault ∧ s.operandBytes k n = .error (.addressOverflow (s.pc.toNat + j)) := by
  induction n generalizing k with
  | zero => simp [State.operandBytes]
  | succ n ih =>
    rcases s.pcPlus_cases k with h | ⟨h, hm, hr⟩
    · have hk : s.operandByte k = .ok (s.memRead (s.pc + BitVec.ofNat 8 k)) := by simp [State.operandByte, h]
      have hrange : s.cfg.addrOverflow = .wrap ∨ s.pc.toNat + k ≤ 255 := by
        cases hm : s.cfg.addrOverflow
        · exact .inl rfl
        · refine .inr (Nat.le_of_not_lt fun hlt => ?_)
          rw [State.pcPlus_overflow hm hlt] at h
          cases h
      rcases ih (k + 1) with ⟨hn, hb⟩ | ⟨j, hkj, hjn, hlow, hhigh, hm, he⟩
      · refine .inl ⟨by simp [State.operandBytes, hk, hn, List.range'_succ], ?_⟩
        rcases hrange with hw | hk'
        · exact .inl hw
        · rcases hb with hw | h0 | hle
          · exact .inl hw
          · exact .inr (.inr (by omega))
          · exact .inr (.inr (by omega))
      · refine .inr ⟨j, by omega, by omega, fun j' h1 h2 => ?_, hhigh, hm, by simp [State.operandBytes, hk, he]⟩
        rcases Nat.eq_or_lt_of_le h1 with rfl | h1
        · exact hrange.resolve_left (by simp [hm])
        · exact hlow j' h1 h2
    · exact .inr ⟨k, le_refl _, by omega, fun j' h1 h2 => absurd h2 (Nat.not_lt.2 h1), hr, hm,
        by simp [State.operandBytes, State.operandByte, h]⟩

/-- Everything a fetch can do: an illegal opcode; an operand fetch that overflows, at its first operand past 255, so
with the value 256; or the instruction whose bytes stand from pc on. -/
theorem State.fetchInstr_cases (s : State) :
    (Opcode.ofByte? (s.memRead s.pc) = none ∧ s.fetchInstr = .error (.illegalOpcode (s.memRead s.pc))) ∨
    (∃ o, Opcode.ofByte? (s.memRead s.pc) = some o ∧ s.cfg.addrOverflow = .fault ∧
      255 < s.pc.toNat + o.operandCount ∧ s.fetchInstr = .error (.addressOverflow 256)) ∨
    (∃ i : Instr, s.memRead s.pc = i.opcode.byte ∧
      i.operands = (List.range' 1 i.opcode.operandCount).map (fun j => s.memRead (s.pc + BitVec.ofNat 8 j)) ∧
      (s.cfg.addrOverflow = .wrap ∨ s.pc.toNat + i.opcode.operandCount ≤ 255) ∧ s.fetchInstr = .ok i) := by
  cases ho : Opcode.ofByte? (s.memRead s.pc) with
  | none => exact .inl ⟨rfl, by simp [State.fetchInstr, ho]⟩
  | some o =>
    rcases s.operandBytes_cases 1 o.operandCount with ⟨hb, hr⟩ | ⟨j, h1, h2, hlow, hhigh, hm, he⟩
    · obtain ⟨i, hi, rfl, hops⟩ := Opcode.assemble_of_length (o := o)
        (bs := (List.range' 1 o.operandCount).map fun j => s.memRead (s.pc + BitVec.ofNat 8 j)) (by simp)
      refine .inr (.inr ⟨i, (Opcode.ofByte?_eq_some_iff.1 ho).symm, hops, ?_, by simp [State.fetchInstr, ho, hb, hi]⟩)
      have := s.pc.isLt
      rcases hr with h | h | h
      · exact .inl h
      · exact .inr (by omega)
      · exact .inr (by omega)
    · have hj : (s.pc.toNat + j : Int) = 256 := by
        have := s.pc.isLt
        rcases Nat.eq_or_lt_of_le h1 with rfl | h1
        · omega
        · have := hlow (j - 1) (by omega) (by omega)
          omega
      exact .inr (.inl ⟨o, rfl, hm, by omega, by simp [State.fetchInstr, ho, he, hj]⟩)

/-- A stopped machine has no step (R80). -/
theorem step_of_stopped {s : State} {r : Fault} (h : s.stopReason = some r) : step s = .fault r := by
  simp [step, h]

/-- A started, running machine with no fault recorded takes the step its fetch gives (R89). -/
theorem step_of_running {s : State} (h : s.stopReason = none) :
    step s = match s.fetchInstr with
      | .ok i => exec i s
      | .error cause => .next (s.raise cause) := by
  cases hf : s.fetchInstr <;> simp [step, h, hf]

end Sys2Proof.Machine
end

