-- ==== Sys2Proof/Laws/Interface.lean ====
section
/-! SUPPORT. The laws of the host's events and of the program text. -/

namespace Sys2Proof.Machine

theorem State.hostEvent_load_ok {s : State} {p : List Byte} (hs : s.phase = .load) (hp : p.length ≤ 256) :
    s.hostEvent (.load p) = .ok (s.storeBytes 0 p) := by
  simp [State.hostEvent, hs, memSize, hp]

theorem State.hostEvent_load_tooLong {s : State} {p : List Byte} (hs : s.phase = .load) (hp : 256 < p.length) :
    s.hostEvent (.load p) = .error (.programTooLong p.length) := by
  simp [State.hostEvent, hs, memSize, Nat.not_le.2 hp]

theorem State.hostEvent_start_ok {s : State} (hs : s.phase = .load) :
    s.hostEvent .start = .ok { s with phase := .run } := by
  simp [State.hostEvent, hs]

/-- The first line of a text, and the lines after it. -/
theorem textLines_append (line rest : List Char) (h : '\n' ∉ line) :
    textLines (line ++ '\n' :: rest) = line :: textLines rest := by
  induction line with
  | nil => simp [textLines]
  | cons c line ih =>
    have hc : c ≠ '\n' := fun hc => h (by simp [hc])
    have := ih fun hl => h (by simp [hl])
    unfold textLines at this ⊢
    simp only [List.cons_append, List.foldr_cons]
    rw [this]
    split
    · exact absurd rfl hc
    · simp_all
    · simp_all

end Sys2Proof.Machine
end

