-- ==== Sys2Proof/Laws/Step.lean ====
section
/-! SUPPORT. What an instruction and a step can do, said once: if it answers next t, then one of these cases holds. -/

namespace Sys2Proof.Machine

/-- How an instruction can leave a state: by a fault entry, for one of the causes it can raise, or by its commit
phase. -/
inductive Executes (s : State) : Instr → State → Prop
  | illegalRegister (i : Instr) (b : Byte) (hb : 8 ≤ b.toNat) (hi : b ∈ i.operands) (hn : i ≠ .hlt ∧ i ≠ .ret) :
      Executes s i (s.raise (.illegalRegister b))
  | pcOverflow (i : Instr) (hm : s.cfg.addrOverflow = .fault) (h : 255 < s.pc.toNat + i.width) (hn : i ≠ .ret) :
      Executes s i (s.raise (.addressOverflow (s.pc.toNat + i.width)))
  | pushOverflow (i : Instr) (hm : s.cfg.addrOverflow = .fault)
      (h : (∃ r, i = .push r ∧ s.readReg spIndex = 0) ∨ (∃ r, i = .call r ∧ s.readReg rspIndex = 0)) :
      Executes s i (s.raise (.addressOverflow (-1)))
  | popOverflow (i : Instr) (hm : s.cfg.addrOverflow = .fault)
      (h : (∃ r, i = .pop r) ∨ (i = .ret ∧ s.readReg rspIndex = 255)) :
      Executes s i (s.raise (.addressOverflow 256))
  | ldi (d v : Byte) (h : d.toNat < 8) (hp : s.pcPlus 3 = .ok (s.pc + 3)) :
      Executes s (.ldi d v) ((s.writeReg ⟨d.toNat, h⟩ v).setPc (s.pc + 3))
  | prn (r : Byte) (h : r.toNat < 8) (hp : s.pcPlus 2 = .ok (s.pc + 2)) :
      Executes s (.prn r) ((s.emit (s.readReg ⟨r.toNat, h⟩)).setPc (s.pc + 2))
  | hlt (hp : s.pcPlus 1 = .ok (s.pc + 1)) : Executes s .hlt (s.stopRunning.setPc (s.pc + 1))
  | push (r : Byte) (h : r.toNat < 8) (hb : s.below (s.readReg spIndex) = .ok (s.readReg spIndex - 1))
      (hp : s.pcPlus 2 = .ok (s.pc + 2)) :
      Executes s (.push r) ((s.pushReg (s.readReg spIndex - 1) ⟨r.toNat, h⟩).setPc (s.pc + 2))
  | pop (r : Byte) (h : r.toNat < 8) (base : Byte)
      (hbase : base = if (⟨r.toNat, h⟩ : Fin 8) = spIndex then s.memRead (s.readReg spIndex) else s.readReg spIndex)
      (ha : s.above base = .ok (base + 1)) (hp : s.pcPlus 2 = .ok (s.pc + 2)) :
      Executes s (.pop r)
        (((s.writeReg ⟨r.toNat, h⟩ (s.memRead (s.readReg spIndex))).writeReg spIndex (base + 1)).setPc (s.pc + 2))
  | mul (a b : Byte) (ha : a.toNat < 8) (hb : b.toNat < 8) (v : Byte)
      (hv : alu .mul (s.readReg ⟨a.toNat, ha⟩) (s.readReg ⟨b.toNat, hb⟩) = .ok v) (hp : s.pcPlus 3 = .ok (s.pc + 3)) :
      Executes s (.mul a b) ((s.writeReg ⟨a.toNat, ha⟩ v).setPc (s.pc + 3))
  | add (a b : Byte) (ha : a.toNat < 8) (hb : b.toNat < 8) (v : Byte)
      (hv : alu .add (s.readReg ⟨a.toNat, ha⟩) (s.readReg ⟨b.toNat, hb⟩) = .ok v) (hp : s.pcPlus 3 = .ok (s.pc + 3)) :
      Executes s (.add a b) ((s.writeReg ⟨a.toNat, ha⟩ v).setPc (s.pc + 3))
  | call (r : Byte) (h : r.toNat < 8) (hp : s.pcPlus 2 = .ok (s.pc + 2))
      (hb : s.below (s.readReg rspIndex) = .ok (s.readReg rspIndex - 1)) (u : State)
      (hu : u = (s.writeReg rspIndex (s.readReg rspIndex - 1)).memWrite (s.readReg rspIndex - 1) (s.pc + 2)) :
      Executes s (.call r) (u.setPc (u.readReg ⟨r.toNat, h⟩))
  | ret (ha : s.above (s.readReg rspIndex) = .ok (s.readReg rspIndex + 1)) :
      Executes s .ret ((s.setPc (s.memRead (s.readReg rspIndex))).writeReg rspIndex (s.readReg rspIndex + 1))

/-- The check of one register operand: either it faults, or the handler goes on with the register. -/
theorem regIdx_bind {i : Instr} {s t : State} {b : Byte} {f : Fin 8 → Except FaultCause State}
    (hi : b ∈ i.operands) (hn : i ≠ .hlt ∧ i ≠ .ret) (h : s.complete (regIdx b >>= f) = .next t) :
    Executes s i t ∨ ∃ hb : b.toNat < 8, s.complete (f ⟨b.toNat, hb⟩) = .next t := by
  rcases regIdx_cases b with ⟨hb, hr⟩ | ⟨hb, hr⟩
  · exact .inr ⟨hb, by simpa [hr] using h⟩
  · rw [hr, error_bind, State.complete_error] at h
    cases h
    exact .inl (.illegalRegister i b hb hi hn)

/-- The check of pc: either it faults, or the handler goes on with the next pc. -/
theorem pcPlus_bind {i : Instr} {s t : State} {f : Byte → Except FaultCause State} (k : Nat) (hk : k = i.width)
    (hn : i ≠ .ret) (h : s.complete (s.pcPlus k >>= f) = .next t) :
    Executes s i t ∨
      (s.pcPlus k = .ok (s.pc + BitVec.ofNat 8 k) ∧ s.complete (f (s.pc + BitVec.ofNat 8 k)) = .next t) := by
  subst hk
  rcases s.pcPlus_cases i.width with hp | ⟨hp, hm, hr⟩
  · exact .inr ⟨hp, by simpa [hp] using h⟩
  · rw [hp, error_bind, State.complete_error] at h
    cases h
    exact .inl (.pcOverflow i hm hr hn)

/-- An ALU instruction, for either tag. -/
theorem aluInstr_next {i : Instr} {s t : State} {tag : AluTag} {a b : Byte} (htag : ∀ x y, ∃ v, alu tag x y = .ok v)
    (hi : i.operands = [a, b]) (hw : i.width = 3) (hn : i ≠ .hlt ∧ i ≠ .ret)
    (hok : ∀ (ha : a.toNat < 8) (hb : b.toNat < 8) (v : Byte),
      alu tag (s.readReg ⟨a.toNat, ha⟩) (s.readReg ⟨b.toNat, hb⟩) = .ok v → s.pcPlus 3 = .ok (s.pc + 3) →
      Executes s i ((s.writeReg ⟨a.toNat, ha⟩ v).setPc (s.pc + 3)))
    (h : s.complete (s.aluInstr tag a b) = .next t) : Executes s i t := by
  rcases regIdx_bind (i := i) (by simp [hi]) hn h with h | ⟨ha, h⟩
  · exact h
  rcases regIdx_bind (i := i) (by simp [hi]) hn h with h | ⟨hb, h⟩
  · exact h
  obtain ⟨v, hv⟩ := htag (s.readReg ⟨a.toNat, ha⟩) (s.readReg ⟨b.toNat, hb⟩)
  rw [hv, ok_bind] at h
  rcases pcPlus_bind (i := i) 3 hw.symm hn.2 h with h | ⟨hp, h⟩
  · exact h
  cases h
  exact hok ha hb v hv hp

/-- Everything an instruction can do. -/
theorem exec_next {i : Instr} {s t : State} (h : exec i s = .next t) : Executes s i t := by
  cases i with
  | ldi d v =>
    rcases regIdx_bind (i := .ldi d v) (by simp [Instr.operands]) (by simp) h with h | ⟨hd, h⟩
    · exact h
    rcases pcPlus_bind (i := .ldi d v) 3 rfl (by simp) h with h | ⟨hp, h⟩
    · exact h
    cases h
    exact .ldi d v hd hp
  | prn r =>
    rcases regIdx_bind (i := .prn r) (by simp [Instr.operands]) (by simp) h with h | ⟨hr, h⟩
    · exact h
    rcases pcPlus_bind (i := .prn r) 2 rfl (by simp) h with h | ⟨hp, h⟩
    · exact h
    cases h
    exact .prn r hr hp
  | hlt =>
    simp only [exec, execHlt] at h
    rcases pcPlus_bind (i := .hlt) 1 rfl (by simp) h with h | ⟨hp, h⟩
    · exact h
    cases h
    exact .hlt hp
  | push r =>
    rcases regIdx_bind (i := .push r) (by simp [Instr.operands]) (by simp) h with h | ⟨hr, h⟩
    · exact h
    rcases s.below_cases (s.readReg spIndex) with hb | ⟨hb, hm, h0⟩ <;> rw [hb] at h
    · rw [ok_bind] at h
      rcases pcPlus_bind (i := .push r) 2 rfl (by simp) h with h | ⟨hp, h⟩
      · exact h
      cases h
      exact .push r hr hb hp
    · cases h
      exact .pushOverflow _ hm (.inl ⟨r, rfl, h0⟩)
  | pop r =>
    rcases regIdx_bind (i := .pop r) (by simp [Instr.operands]) (by simp) h with h | ⟨hr, h⟩
    · exact h
    dsimp only at h
    generalize hbase : (if (⟨r.toNat, hr⟩ : Fin 8) = spIndex then s.memRead (s.readReg spIndex)
      else s.readReg spIndex) = base at h
    rcases s.above_cases base with ha | ⟨ha, hm, _⟩ <;> rw [ha] at h
    · rw [ok_bind] at h
      rcases pcPlus_bind (i := .pop r) 2 rfl (by simp) h with h | ⟨hp, h⟩
      · exact h
      cases h
      exact .pop r hr base hbase.symm ha hp
    · cases h
      exact .popOverflow _ hm (.inl ⟨r, rfl⟩)
  | mul a b => exact aluInstr_next (fun _ _ => ⟨_, rfl⟩) rfl rfl (by simp) (.mul a b) h
  | add a b => exact aluInstr_next (fun _ _ => ⟨_, rfl⟩) rfl rfl (by simp) (.add a b) h
  | call r =>
    rcases regIdx_bind (i := .call r) (by simp [Instr.operands]) (by simp) h with h | ⟨hr, h⟩
    · exact h
    rcases pcPlus_bind (i := .call r) 2 rfl (by simp) h with h | ⟨hp, h⟩
    · exact h
    rcases s.below_cases (s.readReg rspIndex) with hb | ⟨hb, hm, h0⟩ <;> rw [hb] at h
    · cases h
      exact .call r hr hp hb _ rfl
    · cases h
      exact .pushOverflow _ hm (.inr ⟨r, rfl, h0⟩)
  | ret =>
    simp only [exec, execRet] at h
    rcases s.above_cases (s.readReg rspIndex) with ha | ⟨ha, hm, h255⟩ <;> rw [ha] at h
    · cases h
      exact .ret ha
    · cases h
      exact .popOverflow _ hm (.inr ⟨rfl, h255⟩)

/-- Everything a step can do: it is taken only by a started, running machine with no fault recorded, and it ends in the
fault entry of an illegal opcode, in that of an operand fetch past 255, or in what the fetched instruction does. -/
theorem step_next {s t : State} (h : step s = .next t) :
    s.stopReason = none ∧
    ((Opcode.ofByte? (s.memRead s.pc) = none ∧ t = s.raise (.illegalOpcode (s.memRead s.pc))) ∨
     (∃ o, Opcode.ofByte? (s.memRead s.pc) = some o ∧ s.cfg.addrOverflow = .fault ∧
       255 < s.pc.toNat + o.operandCount ∧ t = s.raise (.addressOverflow 256)) ∨
     (∃ i : Instr, s.memRead s.pc = i.opcode.byte ∧
       i.operands = (List.range' 1 i.opcode.operandCount).map (fun j => s.memRead (s.pc + BitVec.ofNat 8 j)) ∧
       (s.cfg.addrOverflow = .wrap ∨ s.pc.toNat + i.opcode.operandCount ≤ 255) ∧ exec i s = .next t)) := by
  cases hr : s.stopReason with
  | some r => rw [step_of_stopped hr] at h; cases h
  | none =>
    rw [step_of_running hr] at h
    refine ⟨rfl, ?_⟩
    rcases s.fetchInstr_cases with ⟨h1, he⟩ | ⟨o, h1, h2, h3, he⟩ | ⟨i, h1, h2, h3, he⟩ <;> rw [he] at h
    · cases h
      exact .inl ⟨h1, rfl⟩
    · cases h
      exact .inr (.inl ⟨o, h1, h2, h3, rfl⟩)
    · exact .inr (.inr ⟨i, h1, h2, h3, h⟩)

end Sys2Proof.Machine
end

