-- ==== Sys2Proof/Tests/Slice0.lean ====
section
/-! SUPPORT. Tests. Expected results are those of spec/95_test_vectors.md (the vector is named) or of the rule cited.
Three parts: words and terms (WellFormed, Decode), one step or one event at a time, and for each statement of
Certificates/Slice0/Obligations.lean that has hypotheses a state and operands that meet them, clause by clause. -/

namespace Sys2Proof.Tests

open Sys2Proof.Machine Sys2Proof.Claims

/-! ## WellFormed: one ill-formed term for each check -/

theorem test_wf_refuses_ldi_reg : Instr.wf (.ldi 8 0) = false := by decide
theorem test_wf_refuses_prn_reg : Instr.wf (.prn 9) = false := by decide
theorem test_wf_refuses_push_reg : Instr.wf (.push 8) = false := by decide
theorem test_wf_refuses_pop_reg : Instr.wf (.pop 10) = false := by decide
theorem test_wf_refuses_mul_regA : Instr.wf (.mul 8 0) = false := by decide
theorem test_wf_refuses_mul_regB : Instr.wf (.mul 0 9) = false := by decide
theorem test_wf_refuses_add_regA : Instr.wf (.add 255 0) = false := by decide
theorem test_wf_refuses_add_regB : Instr.wf (.add 0 8) = false := by decide
theorem test_wf_refuses_call_reg : Instr.wf (.call 8) = false := by decide
theorem test_wf_takes_any_immediate : Instr.wf (.ldi 7 255) = true := by decide

/-! ## Decode: every constructor's word, written out from 30_encoding.md R65 and R61 -/

theorem test_decode_ldi : decode [0b10000010#8, 0b00000111#8, 0b10000000#8] = .ok (.ldi 7 128, []) := by decide
theorem test_decode_prn : decode [0b01000111#8, 0b00000010#8] = .ok (.prn 2, []) := by decide
theorem test_decode_hlt : decode [0b00000001#8] = .ok (.hlt, []) := by decide
theorem test_decode_push : decode [0b01000101#8, 0b00000110#8] = .ok (.push 6, []) := by decide
theorem test_decode_pop : decode [0b01000110#8, 0b00000001#8] = .ok (.pop 1, []) := by decide
theorem test_decode_mul : decode [0b10100010#8, 0b00000000#8, 0b00000001#8] = .ok (.mul 0 1, []) := by decide
theorem test_decode_add : decode [0b10100000#8, 0b00000111#8, 0b00000000#8] = .ok (.add 7 0, []) := by decide
theorem test_decode_call : decode [0b01010000#8, 0b00000110#8] = .ok (.call 6, []) := by decide
theorem test_decode_ret : decode [0b00010001#8] = .ok (.ret, []) := by decide

/-- A register byte of 8 or more decodes; it faults when it executes (R62, R67). -/
theorem test_decode_keeps_the_whole_register_byte : decode [0x82#8, 0xFF#8, 5#8] = .ok (.ldi 255 5, []) := by decide

/-- The bytes after an instruction are left over. -/
theorem test_decode_leaves_the_rest : decode [0x01#8, 0x45#8] = .ok (.hlt, [0x45#8]) := by decide

/-- Vectors V1 to V5. -/
theorem test_illegal_opcodes :
    [0x00#8, 0x83#8, 0xA1#8, 0x10#8, 0x51#8, 0x44#8, 0x48#8, 0x02#8, 0xFF#8].all
      (fun b => decode [b, 0, 0] == .error (.illegalOpcode b)) = true := by decide

/-- 247 bytes are illegal (R67). -/
theorem test_illegal_opcode_count :
    ((List.range 256).filter fun n => (Opcode.ofByte? (BitVec.ofNat 8 n)).isNone).length = 247 := by
  decide +kernel

theorem test_decode_truncated : decode [0x82#8, 0x00#8] = .error (.truncated 0x82) := by decide

/-- A table word gives the instruction, with operand bytes of zeros where the table gives it no bits. -/
theorem test_table_words :
    decodeTableWord 24 0xFF0582 = some (.ldi 5 255) ∧ decodeTableWord 8 0xA2 = some (.mul 0 0) ∧
    decodeTableWord 8 0xFFA2 = some (.mul 0 0) ∧ decodeTableWord 8 0x00 = none := by decide

/-- The spelling of R69. -/
theorem test_asm : Instr.asm (.ldi 0 8) = "LDI R0, 8" ∧ Instr.asm (.call 6) = "CALL R6" := by decide

/-! ## One step -/

/-- A started, running state with the bytes `bs` from `pc` on. -/
def at_ (mode : AddrOverflow) (pc : Byte) (bs : List Byte) (regs : Vector Byte 8) (mem : Memory) : State :=
  { mem := mem, regs := regs, pc := pc, running := true, fault := none, out := [], phase := .run,
    cfg := { addrOverflow := mode, spInit := 0xF4, rspInit := 0xF4 } : State }.storeBytes pc bs

/-- The registers after reset in the reference configuration. -/
def regs0 : Vector Byte 8 := #v[0, 0, 0, 0, 0, 0, 0xF4, 0xF4]

/-- The outcome is a next state that meets the check. -/
def answers (o : Host.Outcome State Fault Refusal) (check : State → Bool) : Bool :=
  match o with
  | .next t => check t
  | .fault _ => false
  | .refused _ => false

theorem next_of_answers {o : Host.Outcome State Fault Refusal} {P : State → Prop} [DecidablePred P]
    (h : answers o (fun t => decide (P t)) = true) : ∃ t, o = .next t ∧ P t := by
  cases o with
  | next t => exact ⟨t, rfl, of_decide_eq_true h⟩
  | fault r => exact Bool.noConfusion h
  | refused r => exact Bool.noConfusion h

theorem next_of_answers_any {o : Host.Outcome State Fault Refusal} (h : answers o (fun _ => true) = true) :
    ∃ t, o = .next t := by
  cases o with
  | next t => exact ⟨t, rfl⟩
  | fault r => exact Bool.noConfusion h
  | refused r => exact Bool.noConfusion h

/-- The step answers a next state that meets the check. -/
def steps (s : State) (check : State → Bool) : Bool := answers (step s) check

/-- The step records a fault and leaves everything else. -/
def faults (s : State) (c : FaultCause) : Bool := steps s (fun t => t == faultEntry s c)

/-- V10 and V12. -/
theorem test_ldi : steps (at_ .wrap 0 [0x82, 5, 0xFF] regs0 [])
    (fun t => t.readReg 5 == 255 && t.pc == 3 && t.readReg 7 == 0xF4 && t.running) = true := by decide

/-- V19: operand 2 comes from address 0, and pc wraps. -/
theorem test_ldi_wraps : steps (at_ .wrap 0xFE [0x82, 1, 0x82] regs0 [])
    (fun t => t.readReg 1 == 0x82 && t.pc == 1) = true := by decide

/-- V15, V18 and V20. -/
theorem test_ldi_faults :
    faults (at_ .wrap 0 [0x82, 8, 5] regs0 []) (.illegalRegister 8) = true ∧
    faults (at_ .fault 0xFD [0x82, 1, 0x2A] regs0 []) (.addressOverflow 256) = true ∧
    faults (at_ .fault 0xFE [0x82, 1, 0x82] regs0 []) (.addressOverflow 256) = true := by decide

/-- V35 and V33. -/
theorem test_prn : steps (at_ .wrap 0xFF [0x47, 0] #v[7, 0, 0, 0, 0, 0, 0, 0] [])
    (fun t => t.out == [7] && t.pc == 1) = true ∧
    steps (at_ .wrap 0 [0x47, 7] regs0 []) (fun t => t.out == [0xF4]) = true := by decide

/-- V34. -/
theorem test_prn_faults : faults (at_ .wrap 0 [0x47, 9] regs0 []) (.illegalRegister 9) = true := by decide

/-- V40 and V41. -/
theorem test_hlt : steps (at_ .wrap 5 [0x01] regs0 []) (fun t => !t.running && t.pc == 6 && t.fault == none) = true ∧
    steps (at_ .wrap 0xFF [0x01] regs0 []) (fun t => !t.running && t.pc == 0) = true := by decide

/-- V42. -/
theorem test_hlt_faults : faults (at_ .fault 0xFF [0x01] regs0 []) (.addressOverflow 256) = true := by decide

/-- V50, V51, V52 and V53. -/
theorem test_push :
    steps (at_ .wrap 3 [0x45, 0] #v[5, 0, 0, 0, 0, 0, 0xF4, 0xF4] [])
      (fun t => t.readReg 7 == 0xF3 && t.memRead 0xF3 == 5 && t.pc == 5) = true ∧
    steps (at_ .wrap 3 [0x45, 7] regs0 []) (fun t => t.readReg 7 == 0xF3 && t.memRead 0xF3 == 0xF3) = true ∧
    steps (at_ .wrap 3 [0x45, 6] regs0 []) (fun t => t.memRead 0xF3 == 0xF4 && t.readReg 6 == 0xF4) = true ∧
    steps (at_ .wrap 3 [0x45, 1] #v[0, 9, 0, 0, 0, 0, 0, 0] [])
      (fun t => t.readReg 7 == 0xFF && t.memRead 0xFF == 9) = true := by decide

/-- V54 and V55. -/
theorem test_push_faults :
    faults (at_ .fault 0 [0x45, 1] #v[0, 9, 0, 0, 0, 0, 0, 0] []) (.addressOverflow (-1)) = true ∧
    faults (at_ .wrap 0 [0x45, 8] regs0 []) (.illegalRegister 8) = true := by decide

/-- V56, V57, V58, V60 and V62. -/
theorem test_pop :
    steps (at_ .wrap 5 [0x46, 1] #v[0, 0, 0, 0, 0, 0, 0, 0xF3] [(0xF3, 5)])
      (fun t => t.readReg 1 == 5 && t.readReg 7 == 0xF4 && t.pc == 7 && t.memRead 0xF3 == 5) = true ∧
    steps (at_ .wrap 5 [0x46, 7] regs0 [(0xF4, 0x10)]) (fun t => t.readReg 7 == 0x11) = true ∧
    steps (at_ .wrap 5 [0x46, 7] regs0 [(0xF4, 0xFF)]) (fun t => t.readReg 7 == 0) = true ∧
    steps (at_ .wrap 5 [0x46, 2] #v[0, 0, 0, 0, 0, 0, 0, 0xFF] [(0xFF, 7)])
      (fun t => t.readReg 2 == 7 && t.readReg 7 == 0) = true ∧
    steps (at_ .wrap 5 [0x46, 6] #v[0, 0, 0, 0, 0, 0, 0, 0xF3] [(0xF3, 0x20)])
      (fun t => t.readReg 6 == 0x20 && t.readReg 7 == 0xF4) = true := by decide

/-- V59 and V63. -/
theorem test_pop_faults :
    faults (at_ .fault 5 [0x46, 7] regs0 [(0xF4, 0xFF)]) (.addressOverflow 256) = true ∧
    faults (at_ .wrap 5 [0x46, 10] regs0 []) (.illegalRegister 10) = true := by decide

/-- V73, V75 and V77. -/
theorem test_mul :
    steps (at_ .wrap 0 [0xA2, 0, 1] #v[255, 255, 0, 0, 0, 0, 0, 0] []) (fun t => t.readReg 0 == 1 && t.pc == 3) = true ∧
    steps (at_ .wrap 0 [0xA2, 0, 1] #v[200, 2, 0, 0, 0, 0, 0, 0] [])
      (fun t => t.readReg 0 == 144 && t.readReg 1 == 2) = true ∧
    steps (at_ .wrap 0 [0xA2, 0, 0] #v[3, 0, 0, 0, 0, 0, 0, 0] []) (fun t => t.readReg 0 == 9) = true := by decide

/-- V79 and V80. -/
theorem test_mul_faults :
    faults (at_ .wrap 0 [0xA2, 8, 9] regs0 []) (.illegalRegister 8) = true ∧
    faults (at_ .wrap 0 [0xA2, 0, 9] regs0 []) (.illegalRegister 9) = true := by decide

/-- V81, V87 and V88. -/
theorem test_add :
    steps (at_ .wrap 0 [0xA0, 0, 1] #v[200, 100, 0, 0, 0, 0, 0, 0] [])
      (fun t => t.readReg 0 == 44 && t.readReg 1 == 100 && t.pc == 3) = true ∧
    steps (at_ .wrap 0 [0xA0, 0, 0] #v[200, 0, 0, 0, 0, 0, 0, 0] []) (fun t => t.readReg 0 == 144) = true ∧
    steps (at_ .wrap 0 [0xA0, 7, 0] #v[255, 0, 0, 0, 0, 0, 0xF4, 0xF4] []) (fun t => t.readReg 7 == 0xF3) = true := by
  decide

/-- V89 and V90. -/
theorem test_add_faults :
    faults (at_ .wrap 0 [0xA0, 0, 8] regs0 []) (.illegalRegister 8) = true ∧
    faults (at_ .fault 0xFD [0xA0, 0, 1] #v[1, 1, 0, 0, 0, 0, 0, 0] []) (.addressOverflow 256) = true := by decide

/-- V100, V101, V102, V103 and V105. -/
theorem test_call :
    steps (at_ .wrap 6 [0x50, 1] #v[0, 11, 0, 0, 0, 0, 0xF4, 0xF4] [])
      (fun t => t.readReg 6 == 0xF3 && t.memRead 0xF3 == 8 && t.pc == 11) = true ∧
    steps (at_ .wrap 0 [0x50, 6] regs0 [])
      (fun t => t.readReg 6 == 0xF3 && t.memRead 0xF3 == 2 && t.pc == 0xF3) = true ∧
    steps (at_ .wrap 0x20 [0x50, 7] regs0 [])
      (fun t => t.memRead 0xF3 == 0x22 && t.pc == 0xF4 && t.readReg 7 == 0xF4) = true ∧
    steps (at_ .wrap 0xFE [0x50, 0] #v[0x40, 0, 0, 0, 0, 0, 0xF4, 0xF4] [])
      (fun t => t.memRead 0xF3 == 0 && t.pc == 0x40) = true ∧
    steps (at_ .wrap 0x10 [0x50, 1] #v[0, 0x30, 0, 0, 0, 0, 0, 0] [])
      (fun t => t.readReg 6 == 0xFF && t.memRead 0xFF == 0x12 && t.pc == 0x30) = true := by decide

/-- V104, V106 and V107. -/
theorem test_call_faults :
    faults (at_ .fault 0xFE [0x50, 0] #v[0x40, 0, 0, 0, 0, 0, 0xF4, 0xF4] []) (.addressOverflow 256) = true ∧
    faults (at_ .fault 0x10 [0x50, 1] #v[0, 0x30, 0, 0, 0, 0, 0, 0] []) (.addressOverflow (-1)) = true ∧
    faults (at_ .wrap 0 [0x50, 8] regs0 []) (.illegalRegister 8) = true := by decide

/-- V110, V111 and V112. -/
theorem test_ret :
    steps (at_ .wrap 0 [0x11] #v[0, 0, 0, 0, 0, 0, 0xF3, 0] [(0xF3, 8)])
      (fun t => t.pc == 8 && t.readReg 6 == 0xF4 && t.memRead 0xF3 == 8) = true ∧
    steps (at_ .wrap 9 [0x11] regs0 []) (fun t => t.pc == 0 && t.readReg 6 == 0xF5) = true ∧
    steps (at_ .wrap 0 [0x11] #v[0, 0, 0, 0, 0, 0, 0xFF, 0] [(0xFF, 0x30)])
      (fun t => t.pc == 0x30 && t.readReg 6 == 0) = true := by decide

/-- V113. -/
theorem test_ret_faults :
    faults (at_ .fault 0 [0x11] #v[0, 0, 0, 0, 0, 0, 0xFF, 0] [(0xFF, 0x30)]) (.addressOverflow 256) = true := by decide

/-- V1, and no further step after it (R91). -/
theorem test_illegal_opcode_step : faults (at_ .wrap 0 [0x00] regs0 []) (.illegalOpcode 0) = true ∧
    (match step (faultEntry (at_ .wrap 0 [0x00] regs0 []) (.illegalOpcode 0)) with
      | .fault (.faulted r) => decide (r.faultPc = 0)
      | _ => false) = true := by decide

/-! ## The host's side -/

/-- No step before start (R180); with a word placed, the first step after reset runs it. -/
theorem test_first_step_after_reset :
    (match step State.reset with
      | .fault .notStarted => true
      | _ => false) = true ∧
    steps (State.reset.withFetchWord 24 0x080082) (fun t => t.readReg 0 == 8 && t.pc == 3) = true := by decide

/-- V120: the trace after loading P1. -/
theorem test_trace_after_load :
    (match (State.reset.hostEvent (.load [0x82, 0, 8, 0x47, 0, 1])) with
      | .ok s => s.trace == { pc := 0, cells := #v[0x82, 0, 8], regs := regs0 }
      | .error _ => false) = true := by decide

/-- V121: the trace wraps. -/
theorem test_trace_wraps :
    (at_ .fault 0xFE [1, 2, 0x82] regs0 []).trace.cells = #v[1, 2, 0x82] := by decide

/-- V30, V31 and V33: the rendering of 8, 0 and 244 (R102). -/
theorem test_rendering : { State.reset with out := [8, 0, 244] }.rendered = "8\n0\n244\n".toList := by decide

/-- S1 as program text, with a comment, white space and a blank line (R70); a line of 256 and a missing file fail the
load (R182). -/
theorem test_program_text :
    loadText (some "10000010 # LDI R0,8\n00000000\n\n00001000\r\n# PRN\n 01000111\n00000000\n00000001".toList) =
      .ok [0x82, 0, 8, 0x47, 0, 1] ∧
    loadText (some "1\n100000000".toList) = .error (.malformedLine 1) ∧
    loadText (some "12".toList) = .error (.malformedLine 0) ∧ loadText none = .error .fileNotFound := by decide

/-- The exit status of a clean and of a fatal end, none while running, and the codes of R160 (R186, R193). -/
theorem test_status :
    let codes : ExitCodes := { ok := 0, usage := 1, noFile := 2, badLoad := 3, fault := 4 }
    let s := at_ .wrap 0 [] regs0 []
    codes.wf = true ∧ s.status.exitStatus codes = none ∧ s.stopRunning.status.exitStatus codes = some 0 ∧
    (s.raise (.illegalRegister 8)).status.exitStatus codes = some 4 ∧
    s.status.code = 0 ∧ (s.raise (.illegalRegister 8)).status.code = 2 ∧
    LoadError.exitStatus .fileNotFound codes = 2 := by decide

/-! ## Witnesses: states and operands that meet the hypotheses of the statements, clause by clause

`edge mode pc x6 x7` has the two stack pointers given; pc 252 to 255 are the boundaries of the pc clauses. -/

def edge (mode : AddrOverflow) (pc x6 x7 : Byte) (bs : List Byte) : State :=
  at_ mode pc bs #v[0, 1, 2, 3, 4, 5, x6, x7] []

theorem witness_LdiSetsRegisterToImmediate :
    ((7#8).toNat < 8 ∧ fits (edge .fault 252 0 0 []) 3) ∧ fits (edge .wrap 253 0 0 []) 3 ∧ 8 ≤ (8#8).toNat ∧
    ((7#8).toNat < 8 ∧ overflows (edge .fault 253 0 0 []) 3) ∧
    ((edge .fault 254 0 0 [0x82]).Live ∧ (edge .fault 254 0 0 [0x82]).memRead 254 = 0x82#8 ∧
      254 ≤ (edge .fault 254 0 0 [0x82]).pc.toNat) := by decide

theorem witness_PrnAppendsRegisterToOutput :
    ((7#8).toNat < 8 ∧ fits (edge .fault 253 0 0 []) 2) ∧ 8 ≤ (8#8).toNat ∧
    ((7#8).toNat < 8 ∧ overflows (edge .fault 254 0 0 []) 2) := by decide

theorem witness_HltClearsRunningAndAdvances :
    fits (edge .fault 254 0 0 []) 1 ∧ overflows (edge .fault 255 0 0 []) 1 := by decide

theorem witness_PushStoresBelowStackPointer :
    ((7#8).toNat < 8 ∧ fits (edge .fault 253 0 1 []) 2 ∧ (edge .fault 253 0 1 []).regs[7] ≠ 0) ∧
    ((0#8).toNat < 8 ∧ (edge .wrap 255 0 0 []).cfg.addrOverflow = .wrap) ∧ 8 ≤ (8#8).toNat ∧
    ((edge .fault 255 0 0 []).cfg.addrOverflow = .fault ∧ (edge .fault 255 0 0 []).regs[7] = 0) ∧
    ((edge .fault 254 0 1 []).regs[7] ≠ 0 ∧ overflows (edge .fault 254 0 1 []) 2) := by decide

theorem witness_PopLoadsFromStackPointer :
    (fits (edge .fault 253 0 254 []) 2 ∧ (edge .fault 253 0 254 []).regs[7] ≠ 255) ∧
    fits (edge .wrap 255 0 255 []) 2 ∧ 8 ≤ (8#8).toNat ∧
    ((edge .fault 254 0 255 []).cfg.addrOverflow = .fault ∧ (edge .fault 254 0 255 []).regs[7] = 255) ∧
    ((edge .fault 254 0 0 [255]).memRead 0 ≠ 255 ∧ overflows (edge .fault 254 0 0 [255]) 2) ∧
    ((edge .fault 1 0 1 [255]).memRead (edge .fault 1 0 1 [255]).regs[7] = 255) := by decide

theorem witness_MulKeepsLowByteOfProduct :
    (fits (edge .fault 252 0 0 []) 3 ∧ (0#8).toNat < 8 ∧ (7#8).toNat < 8) ∧ 8 ≤ (8#8).toNat ∧
    ((7#8).toNat < 8 ∧ 8 ≤ (8#8).toNat) ∧ overflows (edge .fault 253 0 0 []) 3 ∧
    ((edge .fault 254 0 0 [0xA2]).Live ∧ (edge .fault 254 0 0 [0xA2]).memRead 254 = 0xA2#8) := by decide

theorem witness_AddKeepsLowByteOfSum :
    (fits (edge .fault 252 0 0 []) 3 ∧ (7#8).toNat < 8 ∧ (0#8).toNat < 8) ∧ 8 ≤ (255#8).toNat ∧
    ((0#8).toNat < 8 ∧ 8 ≤ (8#8).toNat) ∧ overflows (edge .fault 253 0 0 []) 3 ∧
    ((edge .fault 255 0 0 [0xA0]).Live ∧ (edge .fault 255 0 0 [0xA0]).memRead 255 = 0xA0#8) := by decide

theorem witness_CallSavesReturnAddressAndJumps :
    (fits (edge .fault 253 1 0 []) 2 ∧ (edge .fault 253 1 0 []).regs[6] ≠ 0 ∧ (6#8).toNat < 8) ∧
    fits (edge .wrap 255 0 0 []) 2 ∧ 8 ≤ (8#8).toNat ∧ overflows (edge .fault 254 0 0 []) 2 ∧
    (fits (edge .fault 253 0 0 []) 2 ∧ (edge .fault 253 0 0 []).regs[6] = 0) := by decide

theorem witness_RetJumpsToSavedAddress :
    (edge .wrap 0 255 0 []).cfg.addrOverflow = .wrap ∧ (edge .fault 0 254 0 []).regs[6] ≠ 255 ∧
    ((edge .fault 0 255 0 []).cfg.addrOverflow = .fault ∧ (edge .fault 0 255 0 []).regs[6] = 255) := by decide

theorem witness_AluComputesModulo256 : AluTag.other 0 ≠ .add ∧ AluTag.other 0 ≠ .mul := by decide

theorem witness_FrameOfLdiMulAdd :
    (∃ t, exec (.ldi 7 1) (edge .wrap 255 0 0 []) = .next t) ∧ (∃ t, exec (.mul 0 1) (edge .wrap 255 0 0 []) = .next t) ∧
    (∃ t, exec (.add 8 1) (edge .fault 255 0 0 []) = .next t) := ⟨next_of_answers_any (by decide), next_of_answers_any (by decide), next_of_answers_any (by decide)⟩

theorem witness_FrameOfPrnHlt :
    (∃ t, exec (.prn 7) (edge .wrap 255 0 0 []) = .next t) ∧ (∃ t, exec .hlt (edge .fault 255 0 0 []) = .next t) ∧
    (∃ t, exec .hlt (edge .fault 254 0 0 []) = .next t) := ⟨next_of_answers_any (by decide), next_of_answers_any (by decide), next_of_answers_any (by decide)⟩

theorem witness_FrameOfPushCall :
    (∃ t, exec (.push 7) (edge .wrap 0 0 0 []) = .next t) ∧ (∃ t, exec (.call 6) (edge .wrap 0 0 0 []) = .next t) ∧
    (∃ a, (edge .wrap 0 0 0 []).below ((edge .wrap 0 0 0 []).readReg spIndex) = .ok a) ∧
    (∃ a, (edge .wrap 0 0 0 []).below ((edge .wrap 0 0 0 []).readReg rspIndex) = .ok a) ∧
    (∃ c, (edge .fault 0 0 0 []).below ((edge .fault 0 0 0 []).readReg spIndex) = .error c) ∧
    (∃ c, (edge .fault 0 0 0 []).below ((edge .fault 0 0 0 []).readReg rspIndex) = .error c) :=
  ⟨⟨_, rfl⟩, ⟨_, rfl⟩, ⟨_, rfl⟩, ⟨_, rfl⟩, ⟨_, rfl⟩, ⟨_, rfl⟩⟩

theorem witness_FrameOfPopRet :
    (∃ t, exec (.pop 7) (edge .wrap 0 0 255 []) = .next t) ∧ (∃ t, exec .ret (edge .wrap 0 255 0 []) = .next t) :=
  ⟨next_of_answers_any (by decide), next_of_answers_any (by decide)⟩

theorem witness_StepRunsTheDecodedInstruction :
    let s := edge .fault 253 0 0 [0x82, 1, 2]
    s.Live ∧ fits s (Instr.width (.ldi 1 2) - 1) ∧
    decode [s.memRead s.pc, s.memRead (s.pc + 1), s.memRead (s.pc + 2)] = .ok (.ldi 1 2, []) := by decide

theorem witness_IllegalOpcodeEndsTheRun :
    let s := edge .fault 255 0 0 [0x83]
    s.Live ∧ s.memRead s.pc ∉ [0x82#8, 0x47#8, 0x01#8, 0x45#8, 0x46#8, 0xA2#8, 0xA0#8, 0x50#8, 0x11#8] := by decide

theorem witness_OperandFetchOverflowComesFirst :
    let s := edge .fault 255 0 0 [0x47]
    s.Live ∧ s.cfg.addrOverflow = .fault ∧ s.memRead s.pc = Opcode.byte .prn ∧
    255 < s.pc.toNat + Opcode.operandCount .prn := by decide

theorem witness_StoppedMachineHasNoStep :
    (edge .wrap 0 0 0 []).stopRunning.running = false ∧
    ((edge .wrap 0 0 0 []).raise (.illegalOpcode 0)).fault ≠ none := by decide

theorem witness_StepsBeginAtStart : State.reset.phase = .load ∧ (edge .wrap 0 0 0 []).Live := by decide

theorem witness_FaultsArePrecise :
    ∃ t, step (edge .wrap 0 0 0 [0x82, 8]) = .next t ∧ t.fault ≠ none := next_of_answers (by decide)

theorem witness_WrapRaisesOnlyTwoCauses :
    (∃ t, step (edge .wrap 0 0 0 [0x82, 8]) = .next t ∧ t.fault = some { cause := .illegalRegister 8, faultPc := 0 }) ∧
    (∃ t, step (edge .wrap 255 0 0 [0x01]) = .next t) ∧ (edge .wrap 255 0 0 [0x01]).memRead 255 = 0x01#8 :=
  ⟨next_of_answers (by decide), next_of_answers_any (by decide), by decide⟩

theorem witness_NoStepRaisesUnsupportedAluOp :
    ∃ t, step (edge .wrap 0 0 0 [0xA2, 0, 8]) = .next t ∧
      t.fault = some { cause := .illegalRegister 8, faultPc := 0 } := next_of_answers (by decide)

theorem witness_RunEndsOnlyByHaltOrFault :
    (∃ t, step (edge .wrap 0 0 0 [0x01]) = .next t ∧ t.running = false) ∧
    (∃ t, step (edge .wrap 0 0 0 [0x11]) = .next t ∧ t.running = true) := ⟨next_of_answers (by decide), next_of_answers (by decide)⟩

theorem witness_HaltAloneEndsARunCleanly :
    (∃ t, step (edge .fault 254 0 0 [0x01]) = .next t ∧ t.status.endedCleanly = true) ∧
    (∃ t, step (edge .fault 255 0 0 [0x01]) = .next t ∧ t.status.endedFatally = true) :=
  ⟨next_of_answers (by decide), next_of_answers (by decide)⟩

theorem witness_RunningFlagIsOnlyCleared :
    (∃ t, exec .hlt (edge .wrap 0 0 0 []) = .next t ∧ t.running ≠ (edge .wrap 0 0 0 []).running) ∧
    (∃ t, exec .ret (edge .wrap 0 0 0 []) = .next t ∧ t.running = true) ∧
    (∃ t, exec (.prn 8) (edge .wrap 0 0 0 []) = .next t ∧ t.fault ≠ (edge .wrap 0 0 0 []).fault) :=
  ⟨next_of_answers (by decide), next_of_answers (by decide), next_of_answers (by decide)⟩

theorem witness_OutputGrowsOnlyByPrn :
    ∃ t, step (edge .wrap 255 0 0 [0x47, 7]) = .next t ∧ t.out ≠ [] := next_of_answers (by decide)

theorem witness_SequentialPcAdvancesByWidth :
    ¬isTransfer (.pop 1) ∧ ∃ t, exec (.pop 1) (edge .wrap 255 0 0 []) = .next t := by
  refine ⟨?_, _, rfl⟩
  rintro (h | ⟨r, h⟩) <;> exact Instr.noConfusion h

theorem witness_LoadThenPrintEmitsImmediate : (7#8).toNat < 8 ∧ fits (edge .fault 250 0 0 []) 5 := by decide

theorem witness_PushThenPopRestores :
    (6 : Fin 8).val < 7 ∧ fits (edge .fault 251 0 1 []) 4 ∧ (edge .fault 251 0 1 []).readReg spIndex ≠ 0 := by decide

theorem witness_RetResumesAfterItsCall :
    let s := edge .fault 253 1 0 []
    ((6#8).toNat < 8 ∧ fits s 2 ∧ s.readReg rspIndex ≠ 0) ∧
    ∃ t, exec (.call 6) s = .next t ∧ t.cfg = s.cfg ∧ t.readReg rspIndex = t.readReg rspIndex := by
  exact ⟨by decide, _, rfl, rfl, rfl⟩

theorem witness_OverlappingStacksLoseThePushedByte :
    let s := at_ .wrap 0 [] regs0 []
    (0#8).toNat < 8 ∧ s.cfg.addrOverflow = .wrap ∧ s.readReg spIndex = s.readReg rspIndex := by decide

theorem witness_PushedByteIsFetchedNext :
    let s := edge .wrap 6 0 9 []
    (s.Live ∧ (1 : Fin 8) ≠ spIndex ∧ s.pc + 2 = s.readReg spIndex - 1 ∧ s.readReg 1 = 0x01#8 ∧
      Opcode.ofByte? (s.readReg 2) = none) ∧
    (∃ t, exec (.push 1) s = .next t) ∧ ∃ t, exec (.push 2) s = .next t := by
  exact ⟨by decide, ⟨_, rfl⟩, ⟨_, rfl⟩⟩

theorem witness_OthersNeitherReadNorWriteRsp :
    ¬isTransfer (.push 7) ∧ 6#8 ∉ registerOperands (.push 7) ∧
    ∃ t, exec (.push 7) (edge .wrap 255 0 0 []) = .next t := by
  refine ⟨?_, by decide, _, rfl⟩
  rintro (h | ⟨r, h⟩) <;> exact Instr.noConfusion h

theorem witness_OthersNeitherReadNorWriteSp :
    (∀ r, (Instr.call 6 ≠ .push r ∧ Instr.call 6 ≠ .pop r)) ∧ 7#8 ∉ registerOperands (.call 6) ∧
    ∃ t, exec (.call 6) (edge .wrap 255 0 0 []) = .next t := by
  exact ⟨fun r => ⟨fun h => Instr.noConfusion h, fun h => Instr.noConfusion h⟩, by decide, _, rfl⟩

theorem witness_DecodeMatchesTheWholeOpcode :
    0x11#8 ∈ [0x82#8, 0x47#8, 0x01#8, 0x45#8, 0x46#8, 0xA2#8, 0xA0#8, 0x50#8, 0x11#8] ∧ 2 ≤ [0#8, 0#8].length := by
  decide

theorem witness_InstructionStreamsDecodeUniquely :
    [Instr.ldi 0 1, .hlt].flatMap encode = [Instr.ldi 0 1, .hlt].flatMap encode := rfl

theorem witness_ResetLeavesTheStatedValues : (0 : Fin 8).val < 6 ∧ (5 : Fin 8).val < 6 := by decide

theorem witness_LoadStoresTheProgramFromZero :
    State.reset.phase = .load ∧ (List.replicate 256 (1 : Byte)).length ≤ 256 ∧
    256 < (List.replicate 257 (1 : Byte)).length ∧ (edge .wrap 0 0 0 []).phase = .run := by
  exact ⟨by decide, Nat.le_of_eq List.length_replicate, Nat.le_of_eq List.length_replicate.symm, by decide⟩

theorem witness_FirstInstructionIsAtAddressZero :
    (encode (.ldi 0 8) ++ List.replicate 253 (1 : Byte)).length ≤ 256 := by
  rw [List.length_append, List.length_replicate]
  decide

theorem witness_StepKeepsTheInvariant :
    (edge .wrap 0 0 0 [0x45, 1]).Inv ∧ ∃ t, step (edge .wrap 0 0 0 [0x45, 1]) = .next t :=
  ⟨{ mem_wf := by decide, fault_stops := fun h => absurd rfl h, fault_at_pc := fun _ h => (nomatch h),
     load_is_reset := fun h => nomatch h }, _, rfl⟩

theorem witness_HostEventsKeepTheInvariant :
    (edge .wrap 0 0 0 []).Inv ∧ ∃ t, (edge .wrap 0 0 0 []).hostEvent .reset = .ok t :=
  ⟨{ mem_wf := by decide, fault_stops := fun h => absurd rfl h, fault_at_pc := fun _ h => (nomatch h),
     load_is_reset := fun h => nomatch h }, _, rfl⟩

end Sys2Proof.Tests
end

/-! # The running flag (10_state.md R28)

What an instruction does to `running`, and that its outcome depends on `running` in that field alone. -/

namespace Sys2Proof.Machine

open Sys2Proof.Claims

/-- Fault entry is the same state in the model's words and in the statements' words (60_exceptions.md R162). -/
theorem State.raise_eq_faultEntry (s : State) (c : FaultCause) : s.raise c = faultEntry s c := rfl

/-! ## What an instruction leaves in `running` and in the fault record -/

/-- An instruction enters a fault, or it keeps the fault record; then HLT clears `running` and the others keep it. -/
theorem exec_running_cases {i : Instr} {s t : State} (h : exec i s = .next t) :
    (∃ c, t = faultEntry s c) ∨
    (i = .hlt ∧ t.fault = s.fault ∧ t.running = false) ∨
    (i ≠ .hlt ∧ t.fault = s.fault ∧ t.running = s.running) := by
  cases exec_next h with
  | illegalRegister | pcOverflow | pushOverflow | popOverflow => exact .inl ⟨_, s.raise_eq_faultEntry _⟩
  | hlt => exact .inr (.inl ⟨rfl, rfl, rfl⟩)
  | ldi | prn | push | pop | mul | add | ret => exact .inr (.inr ⟨nofun, rfl, rfl⟩)
  | call _ _ _ _ u hu => exact .inr (.inr ⟨nofun, by simp [hu], by simp [hu]⟩)

/-! ## No instruction reads `running` -/

/-- Two check phases give the same fault, or commits that differ in `running` alone. -/
def SameButRunning (h h' : Except FaultCause State) : Prop :=
  h.map State.stopRunning = h'.map State.stopRunning

/-- Commits agree when the two states with `running` cleared are the same. -/
theorem SameButRunning.ok {t u : State} (h : t.stopRunning = u.stopRunning) :
    SameButRunning (.ok t) (.ok u) :=
  congrArg Except.ok h

/-- One check made by both handlers keeps them the same but for `running`. -/
theorem SameButRunning.bind {α : Type} (x : Except FaultCause α) {f f' : α → Except FaultCause State}
    (h : ∀ a, SameButRunning (f a) (f' a)) : SameButRunning (x >>= f) (x >>= f') := by
  cases x with
  | ok a => exact h a
  | error c => rfl

/-- States that agree with `running` cleared differ in `running` alone. -/
theorem State.eq_with_running {t u : State} (h : t.stopRunning = u.stopRunning) :
    u = { t with running := u.running } :=
  congrArg (fun v : State => { v with running := u.running }) h.symm

/-- The handler template (40_fetch_decode_execute.md R88) keeps two handlers the same but for `running`. -/
theorem SameButRunning.complete {s t : State} {b : Bool} {h h' : Except FaultCause State}
    (ht : s.complete h = .next t) (hs : SameButRunning h h') :
    ∃ b', { s with running := b }.complete h' = .next { t with running := b' } := by
  cases h with
  | ok u =>
    cases h' with
    | ok u' =>
      cases ht
      exact ⟨u'.running, congrArg _ (State.eq_with_running (Except.ok.inj hs))⟩
    | error c' => cases hs
  | error c =>
    cases h' with
    | ok u' => cases hs
    | error c' =>
      cases ht
      cases hs
      exact ⟨false, rfl⟩

/-- Both handlers of an ALU instruction make the same checks and give the ALU the same operands. -/
theorem State.aluInstr_sameButRunning (s : State) (b : Bool) (tag : AluTag) (regA regB : Byte) :
    SameButRunning (s.aluInstr tag regA regB) ({ s with running := b }.aluInstr tag regA regB) :=
  .bind _ fun _ => .bind _ fun _ => .bind _ fun _ => .bind _ fun _ => .ok rfl

/-- From the same state with another `running` an instruction's next state differs in `running` alone: each handler
makes the same checks in both states, and none of its values comes from `running`. -/
theorem exec_with_running {i : Instr} {s t : State} (h : exec i s = .next t) (b : Bool) :
    ∃ b', exec i { s with running := b } = .next { t with running := b' } := by
  cases i <;> simp only [exec, execLdi, execPrn, execHlt, execPush, execPop, execMul, execAdd, execCall,
    execRet] at h ⊢
  case hlt | ret => exact SameButRunning.complete h (.bind _ fun _ => .ok rfl)
  case ldi | prn => exact SameButRunning.complete h (.bind _ fun _ => .bind _ fun _ => .ok rfl)
  case push | pop | call => exact SameButRunning.complete h (.bind _ fun _ => .bind _ fun _ => .bind _ fun _ => .ok rfl)
  case mul | add => exact SameButRunning.complete h (s.aluInstr_sameButRunning b _ _ _)

/-- Settles O27: the first three clauses read off what an instruction leaves in `running` and the fault record; the
last says that no handler reads `running`. -/
theorem runningFlagIsOnlyCleared : Obligations.RunningFlagIsOnlyCleared := by
  intro i s t h
  have hread := exec_with_running h
  rcases exec_running_cases h with ⟨c, rfl⟩ | ⟨rfl, _, hr⟩ | ⟨hi, hf, hr⟩
  · exact ⟨nofun, fun _ => rfl, fun _ => .inr ⟨c, rfl⟩, hread⟩
  · exact ⟨by simp [hr], fun _ => hr, fun _ => .inl rfl, hread⟩
  · exact ⟨fun ht => hr ▸ ht, fun hc => hc.elim (absurd · hi) (absurd hf), fun hne => absurd hr hne, hread⟩

end Sys2Proof.Machine

/-! # What decode does with the opcode byte and the bytes after it (30_encoding.md R60, R64)

One equivalence for each answer: the illegal opcode depends on the opcode byte alone, and an instruction is the opcode
byte followed by its operand bytes. -/

namespace Sys2Proof

open Sys2Proof.Claims

/-- A nonempty list is rejected by name exactly when its first byte names no opcode; the other bytes have no part. -/
theorem decode_cons_eq_illegalOpcode_iff {op : Byte} {rest : List Byte} :
    decode (op :: rest) = .error (.illegalOpcode op) ↔ Opcode.ofByte? op = none := by
  cases ho : Opcode.ofByte? op with
  | none => simp [decode, ho]
  | some o => cases ha : o.assemble rest <;> simp [decode, ho, ha]

/-- A nonempty list decodes to an instruction exactly when its first byte is the instruction's opcode and the operand
bytes follow. -/
theorem decode_cons_eq_ok_iff {op : Byte} {rest left : List Byte} {i : Instr} :
    decode (op :: rest) = .ok (i, left) ↔ i.opcode.byte = op ∧ rest = i.operands ++ left := by
  constructor
  · intro h
    cases ho : Opcode.ofByte? op with
    | none => simp [decode, ho] at h
    | some o =>
      cases ha : o.assemble rest with
      | none => simp [decode, ho, ha] at h
      | some r =>
        obtain rfl : r = (i, left) := by simpa [decode, ho, ha] using h
        obtain ⟨rfl, hrest⟩ := Opcode.assemble_eq_some_iff.1 ha
        exact ⟨Opcode.ofByte?_eq_some_iff.1 ho, hrest⟩
  · rintro ⟨rfl, hrest⟩
    simp [decode, Opcode.assemble_eq_some_iff.2 ⟨rfl, hrest⟩]

theorem Opcode.operandCount_le_two (o : Opcode) : o.operandCount ≤ 2 := by
  cases o <;> decide

/-- Enough bytes begin with the operands of an instruction of the opcode, whatever the bytes are. -/
theorem Opcode.exists_instr_of_operandCount_le {o : Opcode} {bs : List Byte} (h : o.operandCount ≤ bs.length) :
    ∃ (i : Instr) (left : List Byte), i.opcode = o ∧ bs = i.operands ++ left := by
  obtain ⟨i, -, hi, hops⟩ := Opcode.assemble_of_length (List.length_take_of_le h)
  exact ⟨i, bs.drop o.operandCount, hi, by rw [hops, List.take_append_drop]⟩

/-- Settles O38: decode rejects exactly the bytes that name no opcode, and the bytes after an opcode, at least as many
as it takes, are the operands of an instruction and its continuation. -/
theorem decodeMatchesTheWholeOpcode : Obligations.DecodeMatchesTheWholeOpcode := by
  intro op rest
  rw [← Opcode.ofByte?_eq_none_iff_not_mem]
  refine ⟨decode_cons_eq_illegalOpcode_iff, fun hop hlen => ?_⟩
  have hsome : Opcode.ofByte? op ≠ none := fun hnone => Opcode.ofByte?_eq_none_iff_not_mem.1 hnone hop
  obtain ⟨o, ho⟩ := Option.ne_none_iff_exists'.1 hsome
  obtain ⟨i, left, rfl, hrest⟩ := Opcode.exists_instr_of_operandCount_le (o.operandCount_le_two.trans hlen)
  have hbyte := Opcode.ofByte?_eq_some_iff.1 ho
  exact ⟨i, left, decode_cons_eq_ok_iff.2 ⟨hbyte, hrest⟩, hbyte⟩

end Sys2Proof

/-! # Whether a machine has a step, and what an illegal opcode makes of it
(40_fetch_decode_execute.md R80, R82) -/

namespace Sys2Proof.Machine

open Sys2Proof.Claims

/-- Exactly the live machines have no reason to stop (R80). -/
theorem State.stopReason_eq_none_iff_live {s : State} : s.stopReason = none ↔ s.Live :=
  s.stopReason_eq_none_iff.trans (and_congr_right fun _ => and_comm)

/-- Only a live machine takes a step (R80). -/
theorem live_of_step_next {s t : State} (h : step s = .next t) : s.Live :=
  State.stopReason_eq_none_iff_live.1 (step_next h).1

/-- A fault of the fetch is the whole step of a live machine: no instruction executes. -/
theorem step_of_fetchInstr_error {s : State} {c : FaultCause} (hlive : s.Live) (hfetch : s.fetchInstr = .error c) :
    step s = .next (faultEntry s c) := by
  rw [step_of_running (State.stopReason_eq_none_iff_live.2 hlive), hfetch]
  exact congrArg Host.Outcome.next (s.raise_eq_faultEntry c)

/-- An opcode byte that names no opcode ends the fetch before any operand, so at every pc and in both values of
`ADDR_OVERFLOW` (R82). -/
theorem State.fetchInstr_illegalOpcode {s : State} (h : Opcode.ofByte? (s.memRead s.pc) = none) :
    s.fetchInstr = .error (.illegalOpcode (s.memRead s.pc)) := by
  simp [State.fetchInstr, h]

/-- Settles O17: the fetch answers IllegalOpcode from the byte at pc alone, and its fault entry is the step. -/
theorem illegalOpcodeEndsTheRun : Obligations.IllegalOpcodeEndsTheRun := by
  intro s hlive hop
  have hnone : Opcode.ofByte? (s.memRead s.pc) = none := Opcode.ofByte?_eq_none_iff_not_mem.2 hop
  exact step_of_fetchInstr_error hlive (State.fetchInstr_illegalOpcode hnone)

/-- Settles O19: a step would show the machine live, so running and with no fault recorded. -/
theorem stoppedMachineHasNoStep : Obligations.StoppedMachineHasNoStep := by
  intro s hstopped t hstep
  obtain ⟨-, hrunning, hfault⟩ := live_of_step_next hstep
  rcases hstopped with hr | hf
  · simp [hrunning] at hr
  · exact hf hfault

end Sys2Proof.Machine

/-! # LDI, and the operand fetch that overflows before an instruction executes
(41_load_print.md R100; 40_fetch_decode_execute.md R83) -/

namespace Sys2Proof.Machine

open Sys2Proof.Claims

/-- An operand past 255 ends the fetch of every opcode under `ADDR_OVERFLOW = fault`. The first such operand has the
unreduced address 256, whatever pc is (R83). -/
theorem State.fetchInstr_operandOverflow {s : State} {o : Opcode} (hop : s.memRead s.pc = o.byte)
    (hm : s.cfg.addrOverflow = .fault) (hpc : 255 < s.pc.toNat + o.operandCount) :
    s.fetchInstr = .error (.addressOverflow 256) := by
  rcases s.fetchInstr_cases with ⟨hnone, -⟩ | ⟨_, -, -, -, hfetch⟩ | ⟨i, hi, -, hfits, -⟩
  · simp [hop] at hnone
  · exact hfetch
  · obtain rfl : o = i.opcode := Opcode.byte_injective (hop.symm.trans hi)
    rcases hfits with hw | hle
    · simp [hm] at hw
    · omega

/-- With both checks passed LDI commits the immediate and the next pc. -/
theorem exec_ldi_of_fits {d : Byte} {s : State} (hd : d.toNat < 8) (hp : fits s 3) (v : Byte) :
    exec (.ldi d v) s = .next ((s.writeReg ⟨d.toNat, hd⟩ v).setPc (s.pc + 3)) := by
  simp [exec, execLdi, regIdx_ok hd, State.pcPlus_ok hp]

/-- The register byte of LDI is checked before pc + 3, so this fault needs nothing of pc. -/
theorem exec_ldi_illegalRegister {d : Byte} (s : State) (hd : 8 ≤ d.toNat) (v : Byte) :
    exec (.ldi d v) s = .next (faultEntry s (.illegalRegister d)) := by
  simp [exec, execLdi, regIdx_illegal hd, State.raise_eq_faultEntry]

/-- An LDI of a register that exists faults when pc + 3 overflows. -/
theorem exec_ldi_pcOverflow {d : Byte} {s : State} (hd : d.toNat < 8) (hp : overflows s 3) (v : Byte) :
    exec (.ldi d v) s = .next (faultEntry s (.addressOverflow (s.pc.toNat + 3))) := by
  obtain ⟨hm, hpc⟩ := hp
  simp [exec, execLdi, regIdx_ok hd, State.pcPlus_overflow hm hpc, State.raise_eq_faultEntry]

/-- Settles O1: one lemma for each outcome of `exec`; an LDI at 254 or 255 does not get that far, because one of its
two operand bytes cannot be fetched. -/
theorem ldiSetsRegisterToImmediate : Obligations.LdiSetsRegisterToImmediate := by
  intro d v s
  refine ⟨fun hd hp => exec_ldi_of_fits hd hp v, fun hd => exec_ldi_illegalRegister s hd v,
    fun hd hp => exec_ldi_pcOverflow hd hp v, fun hlive hop hm hpc => ?_⟩
  have hlast : 255 < s.pc.toNat + Opcode.operandCount .ldi := Nat.add_le_add_right hpc 2
  exact step_of_fetchInstr_error hlive (State.fetchInstr_operandOverflow (o := .ldi) hop hm hlast)

end Sys2Proof.Machine

/-! # HLT (42_halt.md R110) -/

namespace Sys2Proof.Machine

open Sys2Proof.Claims

/-- `Addr8(pc + 1)` overflows only at the last address. -/
theorem pc_eq_last_of_overflows_one {s : State} (h : overflows s 1) : s.pc = 255 := by
  obtain ⟨-, hpc⟩ := h
  bv_omega

/-- With its one check passed HLT commits the cleared `running` and the next pc. -/
theorem exec_hlt_of_fits {s : State} (hp : fits s 1) :
    exec .hlt s = .next (s.stopRunning.setPc (s.pc + 1)) := by
  simp [exec, execHlt, State.pcPlus_ok hp]

/-- An HLT whose pc + 1 overflows faults instead of ending the run cleanly. -/
theorem exec_hlt_pcOverflow {s : State} (hp : overflows s 1) :
    exec .hlt s = .next (faultEntry s (.addressOverflow (s.pc.toNat + 1))) := by
  obtain ⟨hm, hpc⟩ := hp
  simp [exec, execHlt, State.pcPlus_overflow hm hpc, State.raise_eq_faultEntry]

/-- Settles O3: one lemma for each outcome of `exec`; the address that overflows is 256, because pc is 255. -/
theorem hltClearsRunningAndAdvances : Obligations.HltClearsRunningAndAdvances := by
  intro s
  refine ⟨exec_hlt_of_fits, fun hp => ?_⟩
  have hlast : s.pc = 255 := pc_eq_last_of_overflows_one hp
  have hfault := exec_hlt_pcOverflow hp
  rw [hlast] at hfault
  exact ⟨hlast, hfault⟩

end Sys2Proof.Machine

/-! # The ALU, MUL and ADD (44_alu.md R130 to R133)

The ALU by itself, then one lemma for each outcome of the handler that MUL and ADD share. -/

namespace Sys2Proof.Machine

open Sys2Proof.Claims

/-! ## The ALU -/

theorem alu_unsupported {tag : AluTag} (hadd : tag ≠ .add) (hmul : tag ≠ .mul) (a b : Byte) :
    alu tag a b = .error (.unsupportedAluOp tag) := by
  cases tag with
  | add => exact absurd rfl hadd
  | mul => exact absurd rfl hmul
  | other n => rfl

/-- Settles O10: the ALU gives the byte of the exact result, whose value is that result mod 256; of a tag that is
neither ADD nor MUL it gives the fault. -/
theorem aluComputesModulo256 : Obligations.AluComputesModulo256 := by
  intro a b
  refine ⟨⟨_, rfl, ?_⟩, ⟨_, rfl, ?_⟩, fun _ hadd hmul => alu_unsupported hadd hmul a b⟩
  · exact BitVec.toNat_ofNat (a.toNat + b.toNat) 8
  · exact BitVec.toNat_ofNat (a.toNat * b.toNat) 8

/-! ## The handler that MUL and ADD share -/

/-- With every check passed an ALU instruction commits the value of the ALU and the next pc. -/
theorem State.complete_aluInstr_of_fits {s : State} {tag : AluTag} {a b v : Byte} (ha : a.toNat < 8) (hb : b.toNat < 8)
    (hv : alu tag (s.readReg ⟨a.toNat, ha⟩) (s.readReg ⟨b.toNat, hb⟩) = .ok v) (hp : fits s 3) :
    s.complete (s.aluInstr tag a b) = .next ((s.writeReg ⟨a.toNat, ha⟩ v).setPc (s.pc + 3)) := by
  simp [State.aluInstr, regIdx_ok ha, regIdx_ok hb, hv, State.pcPlus_ok hp]

/-- The first register byte is checked before all else, so this fault needs nothing of the second or of pc. -/
theorem State.complete_aluInstr_illegalFirst (s : State) (tag : AluTag) {a : Byte} (ha : 8 ≤ a.toNat) (b : Byte) :
    s.complete (s.aluInstr tag a b) = .next (faultEntry s (.illegalRegister a)) := by
  simp [State.aluInstr, regIdx_illegal ha, State.raise_eq_faultEntry]

/-- The second register byte is checked after the first, and before the ALU and pc. -/
theorem State.complete_aluInstr_illegalSecond (s : State) (tag : AluTag) {a b : Byte} (ha : a.toNat < 8)
    (hb : 8 ≤ b.toNat) : s.complete (s.aluInstr tag a b) = .next (faultEntry s (.illegalRegister b)) := by
  simp [State.aluInstr, regIdx_ok ha, regIdx_illegal hb, State.raise_eq_faultEntry]

/-- An ALU instruction of registers that exist, with a value of the ALU, faults when pc + 3 overflows. -/
theorem State.complete_aluInstr_pcOverflow {s : State} {tag : AluTag} {a b v : Byte} (ha : a.toNat < 8)
    (hb : b.toNat < 8) (hv : alu tag (s.readReg ⟨a.toNat, ha⟩) (s.readReg ⟨b.toNat, hb⟩) = .ok v)
    (hp : overflows s 3) :
    s.complete (s.aluInstr tag a b) = .next (faultEntry s (.addressOverflow (s.pc.toNat + 3))) := by
  obtain ⟨hm, hpc⟩ := hp
  simp [State.aluInstr, regIdx_ok ha, regIdx_ok hb, hv, State.pcPlus_overflow hm hpc, State.raise_eq_faultEntry]

/-- At 254 and 255 an opcode with two operand bytes does not reach its handler under `ADDR_OVERFLOW = fault`: one of
the two cannot be fetched. -/
theorem step_of_two_operands_past_end {s : State} {o : Opcode} (ho : o.operandCount = 2) (hlive : s.Live)
    (hop : s.memRead s.pc = o.byte) (hm : s.cfg.addrOverflow = .fault) (hpc : 254 ≤ s.pc.toNat) :
    step s = .next (faultEntry s (.addressOverflow 256)) := by
  have hlast : 255 < s.pc.toNat + o.operandCount := by omega
  exact step_of_fetchInstr_error hlive (State.fetchInstr_operandOverflow hop hm hlast)

/-! ## MUL and ADD -/

theorem alu_add (a b : Byte) : alu .add a b = .ok (BitVec.ofNat 8 ((a.toNat + b.toNat) % 256)) :=
  congrArg Except.ok (BitVec.eq_of_toNat_eq (by simp))

theorem alu_mul (a b : Byte) : alu .mul a b = .ok (BitVec.ofNat 8 (a.toNat * b.toNat % 256)) :=
  congrArg Except.ok (BitVec.eq_of_toNat_eq (by simp))

/-- Settles O6: the outcomes of the shared handler with the product of the ALU. -/
theorem mulKeepsLowByteOfProduct : Obligations.MulKeepsLowByteOfProduct := fun _ b s =>
  ⟨fun ha hb hp => State.complete_aluInstr_of_fits ha hb (alu_mul _ _) hp,
    fun ha => s.complete_aluInstr_illegalFirst .mul ha b,
    fun ha hb => s.complete_aluInstr_illegalSecond .mul ha hb,
    fun ha hb hp => State.complete_aluInstr_pcOverflow ha hb (alu_mul _ _) hp,
    fun hlive hop hm hpc => step_of_two_operands_past_end (o := .mul) rfl hlive hop hm hpc⟩

/-- Settles O7: the outcomes of the shared handler with the sum of the ALU. -/
theorem addKeepsLowByteOfSum : Obligations.AddKeepsLowByteOfSum := fun _ b s =>
  ⟨fun ha hb hp => State.complete_aluInstr_of_fits ha hb (alu_add _ _) hp,
    fun ha => s.complete_aluInstr_illegalFirst .add ha b,
    fun ha hb => s.complete_aluInstr_illegalSecond .add ha hb,
    fun ha hb hp => State.complete_aluInstr_pcOverflow ha hb (alu_add _ _) hp,
    fun hlive hop hm hpc => step_of_two_operands_past_end (o := .add) rfl hlive hop hm hpc⟩

end Sys2Proof.Machine

/-! # RET (45_subroutine.md R147) -/

namespace Sys2Proof.Machine

open Sys2Proof.Claims

/-- With its one check passed RET commits the byte at RSP as the next pc, and RSP + 1. -/
theorem exec_ret_of_above_fits {s : State} (hrsp : s.cfg.addrOverflow = .wrap ∨ s.readReg rspIndex ≠ 255) :
    exec .ret s =
      .next ((s.setPc (s.memRead (s.readReg rspIndex))).writeReg rspIndex (s.readReg rspIndex + 1)) := by
  simp [exec, execRet, State.above_ok hrsp]

/-- A RET with RSP at the last address faults: it neither jumps nor moves RSP. -/
theorem exec_ret_rspOverflow {s : State} (hm : s.cfg.addrOverflow = .fault) (hrsp : s.readReg rspIndex = 255) :
    exec .ret s = .next (faultEntry s (.addressOverflow 256)) := by
  have habove : s.above (s.readReg rspIndex) = .error (.addressOverflow 256) := by
    rw [hrsp, State.above_overflow hm]
  simp [exec, execRet, habove, State.raise_eq_faultEntry]

/-- Settles O9: one lemma for each outcome of `exec`; RET makes no check but that of RSP + 1. -/
theorem retJumpsToSavedAddress : Obligations.RetJumpsToSavedAddress :=
  fun _ => ⟨exec_ret_of_above_fits, exec_ret_rspOverflow⟩

end Sys2Proof.Machine

/-! # Decode and encode agree, for one instruction and for a stream of them (30_encoding.md R60, R61, R68) -/

namespace Sys2Proof

open Sys2Proof.Claims

/-- A list decodes to an instruction and a continuation exactly when it is the encoding followed by that
continuation. -/
theorem decode_eq_ok_iff {bs rest : List Byte} {i : Instr} :
    decode bs = .ok (i, rest) ↔ bs = encode i ++ rest := by
  cases bs with
  | nil => simp [decode, encode]
  | cons op bs =>
    rw [decode_cons_eq_ok_iff, encode, List.cons_append, List.cons.injEq]
    exact and_congr_left' eq_comm

@[simp] theorem decode_encode_append (i : Instr) (rest : List Byte) : decode (encode i ++ rest) = .ok (i, rest) :=
  decode_eq_ok_iff.2 rfl

/-- Settles O39: it is the equivalence above, which the model's laws of the opcode map and of `assemble` give. -/
theorem decodeInvertsEncode : Obligations.DecodeInvertsEncode := fun _ _ _ => decode_eq_ok_iff

theorem encode_length (i : Instr) : (encode i).length = i.width := by
  rw [encode, List.length_cons, i.operands_length, Instr.width]

theorem encode_ne_nil (i : Instr) : encode i ≠ [] := List.cons_ne_nil _ _

/-- The encoding is free of ambiguity at the head of a list: equal lists begin with the same instruction and go on
alike. -/
theorem encode_append_inj {i j : Instr} {bs cs : List Byte} (h : encode i ++ bs = encode j ++ cs) :
    i = j ∧ bs = cs := by
  have hdec : (Except.ok (i, bs) : Except DecodeError _) = .ok (j, cs) := by
    rw [← decode_encode_append, h, decode_encode_append]
  simpa using hdec

theorem encode_injective {i j : Instr} (h : encode i = encode j) : i = j :=
  (encode_append_inj (congrArg (· ++ []) h)).1

/-- Settles O40: by induction on the first stream; the two streams begin with one instruction, and the rest of each is
again a stream. -/
theorem instructionStreamsDecodeUniquely : Obligations.InstructionStreamsDecodeUniquely := by
  intro is
  induction is with
  | nil =>
    intro js h
    cases js with
    | nil => rfl
    | cons j js => simp [encode_ne_nil] at h
  | cons i is ih =>
    intro js h
    cases js with
    | nil => simp [encode_ne_nil] at h
    | cons j js =>
      rw [List.flatMap_cons, List.flatMap_cons] at h
      obtain ⟨rfl, hrest⟩ := encode_append_inj h
      rw [ih js hrest]

/-- Settles O37: each list of bytes is the encoding of its instruction. -/
theorem writtenOutWordsDecode : Obligations.WrittenOutWordsDecode :=
  ⟨decode_encode_append (.ldi 5 255) [], decode_encode_append (.prn 3) [], decode_encode_append .hlt [],
    decode_encode_append (.pop 7) [], decode_encode_append (.mul 1 2) [], decode_encode_append .ret []⟩

end Sys2Proof

/-! # What an instruction leaves in each part of the state

One lemma for each part of the state, each read off the inversion of `exec`: the control state, the registers, memory,
the output and pc. The frames of the instructions are assembled from them. -/

namespace Sys2Proof.Machine

open Sys2Proof.Claims

/-! ## Control state -/

theorem exec_phase_cfg {i : Instr} {s t : State} (h : exec i s = .next t) : t.phase = s.phase ∧ t.cfg = s.cfg := by
  cases exec_next h with
  | call _ _ _ _ u hu => simp [hu]
  | _ => exact ⟨rfl, rfl⟩

/-- Every instruction but HLT leaves the control state alone unless it faults. -/
theorem exec_sameControl {i : Instr} {s t : State} (h : exec i s = .next t) (hi : i ≠ .hlt) : sameControl s t := by
  obtain ⟨hphase, hcfg⟩ := exec_phase_cfg h
  refine ⟨hphase, hcfg, ?_⟩
  rcases exec_running_cases h with hfault | ⟨rfl, -, -⟩ | ⟨-, hf, hr⟩
  · exact .inr hfault
  · exact absurd rfl hi
  · exact .inl ⟨hf, hr⟩

/-! ## Registers (10_state.md R25) -/

/-- The registers an instruction may write: its destination and the stack pointer it moves. -/
def writtenRegs : Instr → List Nat
  | .ldi dest _ => [dest.toNat]
  | .mul regA _ => [regA.toNat]
  | .add regA _ => [regA.toNat]
  | .prn _ => []
  | .hlt => []
  | .push _ => [7]
  | .pop reg => [reg.toNat, 7]
  | .call _ => [6]
  | .ret => [6]

/-- A write to a listed register changes no register outside the list. -/
theorem sameRegsExcept_writeReg {s t : State} {l : List Nat} (h : sameRegsExcept s t l) {i : Fin 8} (hi : i.val ∈ l)
    (v : Byte) : sameRegsExcept s (t.writeReg i v) l := by
  intro j hj
  have hne : j ≠ i := by
    rintro rfl
    exact hj hi
  rw [State.readReg_writeReg_of_ne t hne, h j hj]

theorem sameRegsExcept_refl (s : State) (l : List Nat) : sameRegsExcept s s l := fun _ _ => rfl

theorem exec_sameRegsExcept {i : Instr} {s t : State} (h : exec i s = .next t) :
    sameRegsExcept s t (writtenRegs i) := by
  have hrefl := sameRegsExcept_refl s (writtenRegs i)
  cases exec_next h with
  | illegalRegister | pcOverflow | pushOverflow | popOverflow | prn | hlt => exact hrefl
  | ldi | mul | add | ret => exact sameRegsExcept_writeReg hrefl (by simp [writtenRegs]) _
  | push => exact sameRegsExcept_writeReg (i := spIndex) hrefl (by simp [writtenRegs]) _
  | pop =>
    refine sameRegsExcept_writeReg (sameRegsExcept_writeReg hrefl ?_ _) ?_ _ <;>
    simp [writtenRegs]
  | call _ _ _ _ u hu =>
    subst hu
    exact sameRegsExcept_writeReg (i := rspIndex) hrefl (by simp [writtenRegs]) _

/-! ## Memory (20_memory.md R46) -/

/-- The pointer below which an instruction stores: SP for PUSH, RSP for CALL. -/
def storePointer (s : State) : Instr → Option Byte
  | .push _ => some (s.readReg spIndex)
  | .call _ => some (s.readReg rspIndex)
  | _ => none

/-- An instruction leaves memory alone, or it writes the one cell below its stack pointer. -/
theorem exec_mem_cases {i : Instr} {s t : State} (h : exec i s = .next t) :
    t.mem = s.mem ∨
    ∃ p v, storePointer s i = some p ∧ s.below p = .ok (p - 1) ∧ t.mem = Memory.write s.mem (p - 1).toNat v := by
  cases exec_next h with
  | push _ _ hbelow => exact .inr ⟨_, _, rfl, hbelow, rfl⟩
  | call _ _ _ hbelow u hu =>
    subst hu
    exact .inr ⟨_, _, rfl, hbelow, rfl⟩
  | _ => exact .inl rfl

theorem sameMemory_of_mem_eq {s t : State} (h : t.mem = s.mem) : sameMemory s t := fun a => by
  rw [State.memRead, State.memRead, h]

theorem exec_sameMemory {i : Instr} {s t : State} (h : exec i s = .next t) (hi : storePointer s i = none) :
    sameMemory s t := by
  rcases exec_mem_cases h with hmem | ⟨p, v, hp, -, -⟩
  · exact sameMemory_of_mem_eq hmem
  · simp [hi] at hp

/-- Of an instruction that stores, only the cell below its stack pointer can read otherwise; none where that address
raises a fault. -/
theorem exec_memRead_of_storePointer {i : Instr} {s t : State} {p : Byte} (h : exec i s = .next t)
    (hi : storePointer s i = some p) :
    (∀ a, s.below p = .ok a → ∀ b, b ≠ a → t.memRead b = s.memRead b) ∧
    (∀ c, s.below p = .error c → sameMemory s t) := by
  rcases exec_mem_cases h with hmem | ⟨q, v, hq, hbelow, hmem⟩
  · have hsame := sameMemory_of_mem_eq hmem
    exact ⟨fun _ _ b _ => hsame b, fun _ _ => hsame⟩
  · obtain rfl : p = q := Option.some.inj (hi.symm.trans hq)
    constructor
    · intro a ha b hb
      obtain rfl : p - 1 = a := Except.ok.inj (hbelow.symm.trans ha)
      have hcell : b.toNat ≠ (p - 1).toNat := fun heq => hb (BitVec.eq_of_toNat_eq heq)
      rw [State.memRead, State.memRead, hmem, Memory.read_write, if_neg hcell]
    · intro c hc
      rw [hbelow] at hc
      cases hc

/-! ## Output (10_state.md R30) -/

/-- The output grows only by PRN, by the byte of its register. -/
theorem exec_out_cases {i : Instr} {s t : State} (h : exec i s = .next t) :
    t.out = s.out ∨ ∃ r, i = .prn r ∧ ∃ hr : r.toNat < 8, t.out = s.out ++ [s.regs[r.toNat]] := by
  cases exec_next h with
  | prn r hr => exact .inr ⟨r, rfl, hr, rfl⟩
  | call _ _ _ _ u hu => exact .inl (by simp [hu])
  | _ => exact .inl rfl

theorem exec_out_of_ne_prn {i : Instr} {s t : State} (h : exec i s = .next t) (hi : ∀ r, i ≠ .prn r) :
    t.out = s.out := by
  rcases exec_out_cases h with hout | ⟨r, hr, -⟩
  · exact hout
  · exact absurd hr (hi r)

/-! ## The program counter (40_fetch_decode_execute.md R86) -/

/-- Settles O29: the commit phase of each of the seven instructions sets pc to pc plus its width; CALL and RET are the
transfers. -/
theorem sequentialPcAdvancesByWidth : Obligations.SequentialPcAdvancesByWidth := by
  intro i s t hi h
  cases exec_next h with
  | illegalRegister | pcOverflow | pushOverflow | popOverflow => exact .inl ⟨_, s.raise_eq_faultEntry _⟩
  | ldi | prn | hlt | push | pop | mul | add => exact .inr rfl
  | call r => exact absurd (.inr ⟨r, rfl⟩) hi
  | ret => exact absurd (.inl rfl) hi

/-! ## The frames -/

/-- Settles O12: none of the three stores, prints or halts, and each writes only its first operand. -/
theorem frameOfLdiMulAdd : Obligations.FrameOfLdiMulAdd := by
  rintro i d s t (⟨v, rfl⟩ | ⟨b, rfl⟩ | ⟨b, rfl⟩) h <;>
  exact ⟨exec_sameRegsExcept h, exec_sameMemory h rfl, exec_out_of_ne_prn h nofun, exec_sameControl h nofun⟩

/-- Settles O13: PRN appends at most the byte of its register; HLT clears `running` whether it halts or faults. -/
theorem frameOfPrnHlt : Obligations.FrameOfPrnHlt := by
  intro s t
  constructor
  · intro r h
    refine ⟨exec_sameRegsExcept h, exec_sameMemory h rfl, exec_sameControl h nofun, ?_⟩
    rcases exec_out_cases h with hout | ⟨_, hi, hr, hout⟩
    · exact .inl hout
    · cases hi
      exact .inr ⟨hr, hout⟩
  · intro h
    obtain ⟨hphase, hcfg⟩ := exec_phase_cfg h
    refine ⟨exec_sameRegsExcept h, exec_sameMemory h rfl, exec_out_of_ne_prn h nofun, hphase, hcfg, ?_⟩
    rcases exec_running_cases h with ⟨c, rfl⟩ | ⟨-, hf, hr⟩ | ⟨hne, -, -⟩
    · exact ⟨rfl, .inr ⟨c, rfl⟩⟩
    · exact ⟨hr, .inl hf⟩
    · exact absurd rfl hne

/-- Settles O14: PUSH and CALL store below their own pointer and write no other register. -/
theorem frameOfPushCall : Obligations.FrameOfPushCall := by
  intro r s t
  constructor <;> intro h <;>
  exact ⟨exec_sameRegsExcept h, exec_out_of_ne_prn h nofun, exec_sameControl h nofun,
    exec_memRead_of_storePointer h rfl⟩

/-- Settles O15: POP and RET store nothing; POP writes its destination and SP, RET writes RSP. -/
theorem frameOfPopRet : Obligations.FrameOfPopRet := by
  intro s t
  refine ⟨fun r h => ?_, fun h => ?_⟩ <;>
  exact ⟨exec_sameRegsExcept h, exec_sameMemory h rfl, exec_out_of_ne_prn h nofun, exec_sameControl h nofun⟩

end Sys2Proof.Machine

/-! # Every instruction answers a next state, and so does every live machine
(40_fetch_decode_execute.md R80, R88) -/

namespace Sys2Proof.Machine

open Sys2Proof.Claims

/-- The handler template answers a next state whatever the handler answers (R88). -/
theorem State.complete_isNext (s : State) (handler : Except FaultCause State) :
    ∃ t, s.complete handler = .next t := by
  rcases s.complete_cases handler with ⟨t, -, ht⟩ | ⟨c, -, hc⟩
  · exact ⟨t, ht⟩
  · exact ⟨_, hc⟩

/-- Settles O21: every meaning is the handler template around its checks. -/
theorem everyInstructionAnswersANextState : Obligations.EveryInstructionAnswersANextState := by
  intro i s
  cases i <;> simp only [exec, execLdi, execPrn, execHlt, execPush, execPop, execMul, execAdd, execCall, execRet] <;>
  exact s.complete_isNext _

theorem step_of_fetchInstr_ok {s : State} {i : Instr} (hlive : s.Live) (hfetch : s.fetchInstr = .ok i) :
    step s = exec i s := by
  rw [step_of_running (State.stopReason_eq_none_iff_live.2 hlive), hfetch]

/-- Settles O20: a step shows the machine live, so started; and a live machine answers what its fetch gives. -/
theorem stepsBeginAtStart : Obligations.StepsBeginAtStart := by
  intro s
  constructor
  · intro hload t hstep
    obtain ⟨hrun, -, -⟩ := live_of_step_next hstep
    simp [hload] at hrun
  · intro hlive
    cases hfetch : s.fetchInstr with
    | ok i =>
      rw [step_of_fetchInstr_ok hlive hfetch]
      exact everyInstructionAnswersANextState i s
    | error c => exact ⟨_, step_of_fetchInstr_error hlive hfetch⟩

/-- Settles O18: the fetch ends in that overflow before any instruction executes. -/
theorem operandFetchOverflowComesFirst : Obligations.OperandFetchOverflowComesFirst :=
  fun _ _ hlive hm hop hpc => step_of_fetchInstr_error hlive (State.fetchInstr_operandOverflow hop hm hpc)

/-! ## The fetch of an instruction whose bytes stand at pc -/

/-- The bytes of an instruction stand from pc on, and its operands can be fetched: the fetch gives that instruction. -/
theorem State.fetchInstr_ok {s : State} {i : Instr} (hop : s.memRead s.pc = i.opcode.byte)
    (hops : i.operands = (List.range' 1 i.opcode.operandCount).map fun j => s.memRead (s.pc + BitVec.ofNat 8 j))
    (hfits : fits s i.opcode.operandCount) : s.fetchInstr = .ok i := by
  rcases s.fetchInstr_cases with ⟨hnone, -⟩ | ⟨o, ho, hm, hpc, -⟩ | ⟨j, hj, hjops, -, hfetch⟩
  · simp [hop] at hnone
  · obtain rfl : i.opcode = o := by simpa [hop] using ho
    rcases hfits with hw | hle
    · simp [hm] at hw
    · omega
  · have hopcode : j.opcode = i.opcode := Opcode.byte_injective (hj.symm.trans hop)
    have hencode : encode j = encode i := by rw [encode, encode, hjops, hops, hopcode]
    rw [hfetch, encode_injective hencode]

/-- The same, of the encoding read byte by byte. -/
theorem State.fetchInstr_of_encode {s : State} {i : Instr}
    (hbytes : ∀ j, (hj : j < i.width) → (encode i)[j]? = some (s.memRead (s.pc + BitVec.ofNat 8 j)))
    (hfits : fits s i.opcode.operandCount) : s.fetchInstr = .ok i := by
  refine State.fetchInstr_ok ?_ ?_ hfits
  · simpa [encode] using (hbytes 0 (Nat.succ_pos _)).symm
  · refine List.ext_getElem? fun k => ?_
    rcases Nat.lt_or_ge k i.opcode.operandCount with hk | hk
    · have hbyte := hbytes (k + 1) (Nat.succ_lt_succ hk)
      rw [encode, List.getElem?_cons_succ] at hbyte
      simp [hbyte, hk, Nat.add_comm 1 k]
    · simp [hk, i.operands_length]

/-- Settles O16: the bytes that decode to the instruction are its encoding, so the fetch finds it at pc. -/
theorem stepRunsTheDecodedInstruction : Obligations.StepRunsTheDecodedInstruction := by
  intro s i rest hlive hfits hdec
  refine step_of_fetchInstr_ok hlive (State.fetchInstr_of_encode (fun j hj => ?_) hfits)
  have hbytes := decode_eq_ok_iff.1 hdec
  have hlen : j < (encode i).length := by rwa [encode_length]
  rw [← List.getElem?_append_left hlen, ← hbytes]
  have hj3 : j < 3 := hj.trans_le (Nat.succ_le_succ i.opcode.operandCount_le_two)
  interval_cases j <;> simp

end Sys2Proof.Machine

/-! # What a step does with faults, `running` and the output
(40_fetch_decode_execute.md R82 to R90; 60_exceptions.md R161, R162; 70_reset_and_hazards.md R186)

Each statement is read off one inversion: a step enters a fault whose cause is true of the state it leaves from, or it
executes the fetched instruction and records no fault. -/

namespace Sys2Proof.Machine

open Sys2Proof.Claims

/-! ## The inversion -/

/-- A true cause raised is a true fault entry. -/
theorem exists_trueOf_raise {s : State} {c : FaultCause} (hc : c.TrueOf s) :
    ∃ d : FaultCause, d.TrueOf s ∧ s.raise c = faultEntry s d :=
  ⟨c, hc, s.raise_eq_faultEntry c⟩

/-- A fetched instruction faults only for a true cause. An overflow of pc is one of 256: its last operand byte lies
within memory, so the next pc is at most one further. -/
theorem exec_fault_true {i : Instr} {s t : State} (h : exec i s = .next t) (hfits : fits s i.opcode.operandCount) :
    (∃ c : FaultCause, c.TrueOf s ∧ t = faultEntry s c) ∨ t.fault = s.fault := by
  cases exec_next h with
  | illegalRegister _ _ hb => exact .inl (exists_trueOf_raise hb)
  | pcOverflow _ hm hpc =>
    have hlast : (s.pc.toNat + i.width : Int) = 256 := by
      rcases hfits with hw | hle
      · simp [hm] at hw
      · rw [Instr.width] at hpc ⊢
        omega
    exact .inl (exists_trueOf_raise ⟨hm, .inr hlast⟩)
  | pushOverflow _ hm => exact .inl (exists_trueOf_raise ⟨hm, .inl rfl⟩)
  | popOverflow _ hm => exact .inl (exists_trueOf_raise ⟨hm, .inr rfl⟩)
  | call _ _ _ _ u hu => exact .inr (by simp [hu])
  | ldi | prn | hlt | push | pop | mul | add | ret => exact .inr rfl

/-- A step of a live machine enters a fault for a true cause, or it executes the instruction whose opcode stands at pc
and records no fault. -/
theorem step_cases {s t : State} (h : step s = .next t) :
    (∃ c : FaultCause, c.TrueOf s ∧ t = faultEntry s c) ∨
    ∃ i : Instr, s.memRead s.pc = i.opcode.byte ∧ exec i s = .next t ∧ t.fault = none := by
  obtain ⟨-, -, hnofault⟩ := live_of_step_next h
  obtain ⟨-, ⟨hnone, rfl⟩ | ⟨_, -, hm, -, rfl⟩ | ⟨i, hop, -, hfits, hexec⟩⟩ := step_next h
  · exact .inl (exists_trueOf_raise ⟨rfl, hnone⟩)
  · exact .inl (exists_trueOf_raise ⟨hm, .inr rfl⟩)
  · rcases exec_fault_true hexec hfits with hfault | hkept
    · exact .inl hfault
    · exact .inr ⟨i, hop, hexec, hkept.trans hnofault⟩

/-- A step that records a fault enters that fault, and its cause is true. -/
theorem step_fault_true {s t : State} {r : FaultRecord} (h : step s = .next t) (hr : t.fault = some r) :
    r.cause.TrueOf s ∧ t = faultEntry s r.cause := by
  rcases step_cases h with ⟨c, hc, rfl⟩ | ⟨_, -, -, hnone⟩
  · cases hr
    exact ⟨hc, rfl⟩
  · simp [hnone] at hr

/-! ## Faults -/

/-- Settles O22: a recorded fault is one the step entered. -/
theorem faultsArePrecise : Obligations.FaultsArePrecise := by
  intro s t h hfault
  obtain ⟨r, hr⟩ := Option.ne_none_iff_exists'.1 hfault
  exact ⟨r.cause, (step_fault_true h hr).2⟩

/-- Settles O24: UnsupportedAluOp is true of no state. -/
theorem noStepRaisesUnsupportedAluOp : Obligations.NoStepRaisesUnsupportedAluOp := by
  intro s t r tag h hr hcause
  have htrue := (step_fault_true h hr).1
  rw [hcause] at htrue
  exact htrue

/-! ## HLT and RET, whose fetch takes no operand -/

/-- An instruction without operands is fetched wherever its opcode stands. -/
theorem step_of_no_operands {s : State} {i : Instr} (hlive : s.Live) (hop : s.memRead s.pc = i.opcode.byte)
    (hi : i.operands = []) : step s = exec i s := by
  have hcount : i.opcode.operandCount = 0 := by rw [← i.operands_length, hi, List.length_nil]
  have hfits : fits s i.opcode.operandCount := .inr (by have := s.pc.isLt; omega)
  exact step_of_fetchInstr_ok hlive (State.fetchInstr_ok hop (by simp [hi, hcount]) hfits)

theorem step_of_hlt {s : State} (hlive : s.Live) (hop : s.memRead s.pc = 0x01#8) : step s = exec .hlt s :=
  step_of_no_operands (i := .hlt) hlive hop rfl

theorem step_of_ret {s : State} (hlive : s.Live) (hop : s.memRead s.pc = 0x11#8) : step s = exec .ret s :=
  step_of_no_operands (i := .ret) hlive hop rfl

/-- HLT is the only instruction of its opcode. -/
theorem Instr.eq_hlt_iff_opcode_byte {i : Instr} : i = .hlt ↔ i.opcode.byte = 0x01#8 := by
  cases i <;> simp [Instr.opcode, Opcode.byte]

/-- Of a true cause under `ADDR_OVERFLOW = wrap` the two kinds R161 leaves. -/
theorem trueOf_wrap {s : State} {c : FaultCause} (hc : c.TrueOf s) (hw : s.cfg.addrOverflow = .wrap) :
    c = .illegalOpcode (s.memRead s.pc) ∨ ∃ b, 8 ≤ b.toNat ∧ c = .illegalRegister b := by
  cases c with
  | illegalOpcode op =>
    obtain ⟨rfl, -⟩ := hc
    exact .inl rfl
  | illegalRegister b => exact .inr ⟨b, hc, rfl⟩
  | unsupportedAluOp tag => exact hc.elim
  | addressOverflow v => simp [FaultCause.TrueOf, hw] at hc

/-- Settles O23: of the true causes `wrap` leaves two, and HLT and RET have no check left that could fail. -/
theorem wrapRaisesOnlyTwoCauses : Obligations.WrapRaisesOnlyTwoCauses := by
  intro s t hw h
  have hlive := live_of_step_next h
  have ⟨_, _, hnofault⟩ := hlive
  refine ⟨fun r hr => trueOf_wrap (step_fault_true h hr).1 hw, ?_⟩
  rintro (hop | hop)
  · rw [step_of_hlt hlive hop, exec_hlt_of_fits (.inl hw)] at h
    cases h
    exact hnofault
  · rw [step_of_ret hlive hop, exec_ret_of_above_fits (.inl hw)] at h
    cases h
    exact hnofault

/-! ## The end of a run -/

/-- Settles O25: a fault entry clears `running`; of the instructions that record no fault only HLT does. -/
theorem runEndsOnlyByHaltOrFault : Obligations.RunEndsOnlyByHaltOrFault := by
  intro s t h
  obtain ⟨-, hrunning, -⟩ := live_of_step_next h
  rcases step_cases h with ⟨c, -, rfl⟩ | ⟨i, hop, hexec, hnone⟩
  · exact iff_of_true rfl (.inr nofun)
  · rw [hop, ← Instr.eq_hlt_iff_opcode_byte]
    rcases exec_running_cases hexec with ⟨c, rfl⟩ | ⟨hi, -, hr⟩ | ⟨hi, -, hr⟩
    · cases hnone
    · exact iff_of_true hr (.inl hi)
    · simp [hi, hr, hrunning, hnone]

/-- `Addr8(pc + 1)` overflows at the last address alone. -/
theorem fits_one_iff {s : State} : fits s 1 ↔ s.cfg.addrOverflow = .wrap ∨ s.pc ≠ 255 := by
  refine or_congr_right ?_
  bv_omega

/-- `Addr8(pc + k)` answers an address or overflows (00_scope.md R11). -/
theorem overflows_of_not_fits {s : State} {k : Nat} (h : ¬fits s k) : overflows s k := by
  obtain ⟨hm, hpc⟩ := not_or.1 h
  refine ⟨?_, Nat.lt_of_not_le hpc⟩
  cases hmode : s.cfg.addrOverflow
  · exact absurd hmode hm
  · rfl

/-- A step at an HLT opcode records no fault exactly when pc + 1 is an address or wraps. -/
theorem step_hlt_fault_eq_none_iff {s t : State} (h : step s = .next t) (hop : s.memRead s.pc = 0x01#8) :
    t.fault = none ↔ fits s 1 := by
  have hlive := live_of_step_next h
  have ⟨_, _, hnofault⟩ := hlive
  rw [step_of_hlt hlive hop] at h
  by_cases hp : fits s 1
  · rw [exec_hlt_of_fits hp] at h
    cases h
    exact iff_of_true hnofault hp
  · rw [exec_hlt_pcOverflow (overflows_of_not_fits hp)] at h
    cases h
    exact iff_of_false nofun hp

theorem endedCleanly_iff (t : State) : t.status.endedCleanly = true ↔ t.running = false ∧ t.fault = none := by
  simp [State.status, Status.endedCleanly]

theorem endedFatally_iff (t : State) : t.status.endedFatally = true ↔ t.running = false ∧ t.fault ≠ none := by
  simp [State.status, Status.endedFatally, Option.isSome_iff_ne_none]

/-- Settles O26: which steps clear `running` is known; a clean end is one of them with no fault, so an HLT whose pc + 1
does not overflow. -/
theorem haltAloneEndsARunCleanly : Obligations.HaltAloneEndsARunCleanly := by
  intro s t h
  have hends := runEndsOnlyByHaltOrFault s t h
  rw [endedCleanly_iff, endedFatally_iff, hends, ← fits_one_iff]
  constructor
  · constructor
    · rintro ⟨hop | hfault, hnone⟩
      · exact ⟨hop, (step_hlt_fault_eq_none_iff h hop).1 hnone⟩
      · exact absurd hnone hfault
    · rintro ⟨hop, hp⟩
      exact ⟨.inl hop, (step_hlt_fault_eq_none_iff h hop).2 hp⟩
  · exact and_iff_right_of_imp .inr

/-! ## The output -/

/-- Settles O28: a fault entry keeps the output; an instruction that does not is a PRN, whose operand is the byte at
pc + 1. -/
theorem outputGrowsOnlyByPrn : Obligations.OutputGrowsOnlyByPrn := by
  intro s t h
  obtain ⟨-, ⟨-, rfl⟩ | ⟨_, -, -, -, rfl⟩ | ⟨i, hop, hops, -, hexec⟩⟩ := step_next h
  · exact .inl rfl
  · exact .inl rfl
  · rcases exec_out_cases hexec with hout | ⟨r, rfl, hr, hout⟩
    · exact .inl hout
    · obtain rfl : r = s.memRead (s.pc + 1) := List.head_eq_of_cons_eq hops
      exact .inr ⟨hop, hr, hout⟩

end Sys2Proof.Machine

/-! # The invariant of the core

It holds at reset, and every step and every event of the host keeps it. -/

namespace Sys2Proof.Machine

open Sys2Proof.Claims

/-! ## Reset (10_state.md R34) -/

/-- The states of the load phase: reset's but for a canonical memory. -/
theorem inv_of_load (cfg : Config) {m : Memory} (hwf : m.wf = true) :
    State.Inv { State.resetWith cfg with mem := m } where
  mem_wf := hwf
  fault_stops h := absurd rfl h
  fault_at_pc _ h := nomatch h
  load_is_reset _ := rfl

theorem resetWith_inv (cfg : Config) : (State.resetWith cfg).Inv := inv_of_load cfg Memory.wf_nil

/-- Settles O45: `State.reset` is the reset state of the reference configuration. -/
theorem resetMeetsTheInvariant : Obligations.ResetMeetsTheInvariant :=
  ⟨resetWith_inv Config.reference, resetWith_inv⟩

/-- Settles O41: the fields as reset writes them; the six registers are read one by one. -/
theorem resetLeavesTheStatedValues : Obligations.ResetLeavesTheStatedValues := by
  refine ⟨rfl, fun cfg => ⟨fun _ => rfl, fun j hj => ?_, rfl, rfl, rfl, rfl, rfl, rfl⟩⟩
  obtain ⟨j, hj8⟩ := j
  dsimp only at hj
  interval_cases j <;> rfl

/-! ## Steps -/

/-- Every instruction keeps memory in its canonical form: the one cell it may write is a cell of the memory. -/
theorem exec_mem_wf {i : Instr} {s t : State} (h : exec i s = .next t) (hwf : s.mem.wf = true) : t.mem.wf = true := by
  rcases exec_mem_cases h with hmem | ⟨p, v, -, -, hmem⟩ <;> rw [hmem]
  · exact hwf
  · exact Memory.write_wf hwf (p - 1).isLt v

/-- A true cause stays true in its own fault entry: nothing it speaks of is written (R88). -/
theorem trueOf_faultEntry {s : State} {c d : FaultCause} (h : c.TrueOf s) : c.TrueOf (faultEntry s d) := by
  cases c <;> exact h

theorem faultEntry_inv {s : State} {c : FaultCause} (hs : s.Inv) (hrun : s.phase = .run) (hc : c.TrueOf s) :
    (faultEntry s c).Inv where
  mem_wf := hs.mem_wf
  fault_stops _ := rfl
  fault_at_pc r hr := by
    cases hr
    exact ⟨rfl, trueOf_faultEntry hc⟩
  load_is_reset hload := by
    have : s.phase = .load := hload
    simp [hrun] at this

/-- After start a state with no fault recorded needs only its memory to be canonical. -/
theorem inv_of_no_fault {s : State} (hwf : s.mem.wf = true) (hrun : s.phase = .run) (hnone : s.fault = none) :
    s.Inv where
  mem_wf := hwf
  fault_stops h := absurd hnone h
  fault_at_pc r hr := by simp [hnone] at hr
  load_is_reset hload := by simp [hrun] at hload

/-- Settles O46: a step that faults enters a true fault; one that does not executes an instruction, which keeps memory
canonical and the phase. -/
theorem stepKeepsTheInvariant : Obligations.StepKeepsTheInvariant := by
  intro s t hs h
  obtain ⟨hrun, -, -⟩ := live_of_step_next h
  rcases step_cases h with ⟨c, hc, rfl⟩ | ⟨i, -, hexec, hnone⟩
  · exact faultEntry_inv hs hrun hc
  · exact inv_of_no_fault (exec_mem_wf hexec hs.mem_wf) ((exec_phase_cfg hexec).1.trans hrun) hnone

/-! ## Events of the host (70_reset_and_hazards.md R181, R185) -/

/-- Everything an event of the host can do: reset; in the load phase, store a program that fits or end the phase. -/
theorem hostEvent_cases {s t : State} {e : HostEvent} (h : s.hostEvent e = .ok t) :
    t = State.resetWith s.cfg ∨
    (s.phase = .load ∧ ((∃ p, p.length ≤ 256 ∧ t = s.storeBytes 0 p) ∨ t = { s with phase := .run })) := by
  cases e with
  | reset =>
    cases h
    exact .inl rfl
  | load p =>
    cases hs : s.phase with
    | run => simp [State.hostEvent, hs] at h
    | load =>
      rcases Nat.lt_or_ge 256 p.length with hp | hp
      · rw [State.hostEvent_load_tooLong hs hp] at h
        cases h
      · rw [State.hostEvent_load_ok hs hp] at h
        cases h
        exact .inr ⟨rfl, .inl ⟨p, hp, rfl⟩⟩
  | start =>
    cases hs : s.phase with
    | run => simp [State.hostEvent, hs] at h
    | load =>
      rw [State.hostEvent_start_ok hs] at h
      cases h
      exact .inr ⟨rfl, .inr rfl⟩

/-- Settles O47: a load changes only memory and keeps it canonical; start changes only the phase of a state that has no
fault, because it is reset's. -/
theorem hostEventsKeepTheInvariant : Obligations.HostEventsKeepTheInvariant := by
  intro s t e hs h
  rcases hostEvent_cases h with rfl | ⟨hload, ⟨p, -, rfl⟩ | rfl⟩
  · exact resetWith_inv s.cfg
  · have hreset : s.storeBytes 0 p = { State.resetWith s.cfg with mem := (s.storeBytes 0 p).mem } := by
      rw [State.storeBytes_eq s 0 p]
      exact congrArg (fun u : State => { u with mem := (s.storeBytes 0 p).mem }) (hs.load_is_reset hload)
    rw [hreset]
    exact inv_of_load s.cfg (State.storeBytes_wf hs.mem_wf 0 p)
  · have hnone : s.fault = none := congrArg State.fault (hs.load_is_reset hload)
    exact inv_of_no_fault hs.mem_wf rfl hnone

end Sys2Proof.Machine

/-! # PRN, PUSH, POP and CALL (41_load_print.md R101; 43_stack.md R116, R117; 45_subroutine.md R146)

One lemma for each outcome of `exec`, as for LDI, HLT and RET; the check of the register byte, which the four share, is
said once. -/

namespace Sys2Proof.Machine

open Sys2Proof.Claims

/-- Settles O11: the ALU adds and multiplies the two values as numbers; for another tag it does not read them. -/
theorem aluIsCommutative : Obligations.AluIsCommutative := by
  intro tag a b
  cases tag with
  | add => simp only [alu, Nat.add_comm]
  | mul => simp only [alu, Nat.mul_comm]
  | other n => rfl

/-! ## The register a byte names -/

/-- The register a byte names is register k exactly when the byte is k. -/
theorem register_eq_iff {b : Byte} (h : b.toNat < 8) (k : Fin 8) :
    (⟨b.toNat, h⟩ : Fin 8) = k ↔ b = BitVec.ofNat 8 k.val := by
  rw [Fin.ext_iff, ← BitVec.toNat_inj, BitVec.toNat_ofNat, Nat.mod_eq_of_lt (k.isLt.trans (by decide))]

/-- The byte of a register number names that register. -/
theorem regIdx_ofNat (k : Fin 8) : regIdx (BitVec.ofNat 8 k.val) = .ok k := by
  have h : (BitVec.ofNat 8 k.val).toNat < 8 := by
    rw [BitVec.toNat_ofNat]
    omega
  rw [regIdx_ok h, (register_eq_iff h k).2 rfl]

/-- A register byte that names none is the whole outcome of a handler that checks it first. -/
theorem State.complete_regIdx_illegal (s : State) {b : Byte} (hb : 8 ≤ b.toNat) (f : Fin 8 → Except FaultCause State) :
    s.complete (regIdx b >>= f) = .next (faultEntry s (.illegalRegister b)) := by
  simp [regIdx_illegal hb, State.raise_eq_faultEntry]

/-- The two stacks have pointers of their own (10_state.md R23, R24). -/
theorem rspIndex_ne_spIndex : rspIndex ≠ spIndex := by decide

/-! ## PRN -/

/-- With both checks passed PRN commits the byte of its register at the end of the output, and the next pc. -/
theorem exec_prn_of_fits {r : Byte} {i : Fin 8} {s : State} (hr : regIdx r = .ok i) (hp : fits s 2) :
    exec (.prn r) s = .next ((s.emit (s.readReg i)).setPc (s.pc + 2)) := by
  simp [exec, execPrn, hr, State.pcPlus_ok hp]

theorem exec_prn_pcOverflow {r : Byte} {i : Fin 8} {s : State} (hr : regIdx r = .ok i) (hp : overflows s 2) :
    exec (.prn r) s = .next (faultEntry s (.addressOverflow (s.pc.toNat + 2))) := by
  obtain ⟨hm, hpc⟩ := hp
  simp [exec, execPrn, hr, State.pcPlus_overflow hm hpc, State.raise_eq_faultEntry]

/-- Settles O2: one lemma for each outcome of `exec`. -/
theorem prnAppendsRegisterToOutput : Obligations.PrnAppendsRegisterToOutput := fun _ s =>
  ⟨fun hr hp => exec_prn_of_fits (regIdx_ok hr) hp, fun hr => s.complete_regIdx_illegal hr _,
    fun hr hp => exec_prn_pcOverflow (regIdx_ok hr) hp⟩

/-! ## PUSH -/

/-- With its three checks passed PUSH commits the decremented SP, the store there and the next pc. -/
theorem exec_push_of_fits {r : Byte} {i : Fin 8} {s : State} (hr : regIdx r = .ok i)
    (hsp : s.cfg.addrOverflow = .wrap ∨ s.readReg spIndex ≠ 0) (hp : fits s 2) :
    exec (.push r) s = .next ((s.pushReg (s.readReg spIndex - 1) i).setPc (s.pc + 2)) := by
  simp [exec, execPush, hr, State.below_ok hsp, State.pcPlus_ok hp]

/-- A PUSH with SP at address 0 faults, whatever pc is. -/
theorem exec_push_spOverflow {r : Byte} {i : Fin 8} {s : State} (hr : regIdx r = .ok i)
    (hm : s.cfg.addrOverflow = .fault) (hsp : s.readReg spIndex = 0) :
    exec (.push r) s = .next (faultEntry s (.addressOverflow (-1))) := by
  have hbelow : s.below (s.readReg spIndex) = .error (.addressOverflow (-1)) := by rw [hsp, State.below_overflow hm]
  simp [exec, execPush, hr, hbelow, State.raise_eq_faultEntry]

theorem exec_push_pcOverflow {r : Byte} {i : Fin 8} {s : State} (hr : regIdx r = .ok i)
    (hsp : s.readReg spIndex ≠ 0) (hp : overflows s 2) :
    exec (.push r) s = .next (faultEntry s (.addressOverflow (s.pc.toNat + 2))) := by
  obtain ⟨hm, hpc⟩ := hp
  simp [exec, execPush, hr, State.below_ok (.inr hsp), State.pcPlus_overflow hm hpc, State.raise_eq_faultEntry]

/-- The commit phase of PUSH written out: SP, and the one cell, whose byte is the register as it stands after SP was
written. -/
theorem State.pushReg_eq (s : State) (spn : Byte) (i : Fin 8) :
    s.pushReg spn i =
      { s with
        regs := s.regs.set 7 spn
        mem := Memory.write s.mem spn.toNat (if i = spIndex then spn else s.readReg i) } := by
  simp only [State.pushReg, State.readReg_writeReg]
  rfl

/-- Settles O4: one lemma for each outcome of `exec`; the stored byte is SP's own when the byte names register 7. -/
theorem pushStoresBelowStackPointer : Obligations.PushStoresBelowStackPointer := by
  intro r s
  refine ⟨fun hr hp hsp => ?_, fun hr => s.complete_regIdx_illegal hr _,
    fun hr hm hsp => exec_push_spOverflow (regIdx_ok hr) hm hsp,
    fun hr hsp hp => exec_push_pcOverflow (regIdx_ok hr) hsp hp⟩
  rw [exec_push_of_fits (regIdx_ok hr) hsp hp, State.pushReg_eq]
  simp only [register_eq_iff hr]
  rfl

/-! ## POP -/

/-- The value POP increments: SP, or the popped byte where POP R7 has just put it there (R117). -/
def popBase (s : State) (i : Fin 8) : Byte :=
  if i = spIndex then s.memRead (s.readReg spIndex) else s.readReg spIndex

/-- With its three checks passed POP commits the byte at SP, then the incremented SP, and the next pc. -/
theorem exec_pop_of_fits {r : Byte} {i : Fin 8} {s : State} (hr : regIdx r = .ok i)
    (hsp : s.cfg.addrOverflow = .wrap ∨ popBase s i ≠ 255) (hp : fits s 2) :
    exec (.pop r) s = .next
      (((s.writeReg i (s.memRead (s.readReg spIndex))).writeReg spIndex (popBase s i + 1)).setPc (s.pc + 2)) := by
  have habove := State.above_ok hsp
  rw [popBase] at habove ⊢
  simp [exec, execPop, hr, habove, State.pcPlus_ok hp]

/-- A POP whose increment starts from 255 faults, whatever pc is. -/
theorem exec_pop_spOverflow {r : Byte} {i : Fin 8} {s : State} (hr : regIdx r = .ok i)
    (hm : s.cfg.addrOverflow = .fault) (hsp : popBase s i = 255) :
    exec (.pop r) s = .next (faultEntry s (.addressOverflow 256)) := by
  have habove : s.above (popBase s i) = .error (.addressOverflow 256) := by rw [hsp, State.above_overflow hm]
  rw [popBase] at habove
  simp [exec, execPop, hr, habove, State.raise_eq_faultEntry]

theorem exec_pop_pcOverflow {r : Byte} {i : Fin 8} {s : State} (hr : regIdx r = .ok i)
    (hsp : popBase s i ≠ 255) (hp : overflows s 2) :
    exec (.pop r) s = .next (faultEntry s (.addressOverflow (s.pc.toNat + 2))) := by
  obtain ⟨hm, hpc⟩ := hp
  have habove := s.above_ok (.inr hsp)
  rw [popBase] at habove
  simp [exec, execPop, hr, habove, State.pcPlus_overflow hm hpc, State.raise_eq_faultEntry]

/-- Settles O5: one lemma for each outcome of `exec`, with the base of the increment in the words of the statement. -/
theorem popLoadsFromStackPointer : Obligations.PopLoadsFromStackPointer := by
  rintro r s v base rfl rfl
  have hbase : ∀ hr : r.toNat < 8,
      popBase s ⟨r.toNat, hr⟩ = if r = 7 then s.memRead s.regs[7] else s.regs[7] :=
    fun hr => if_congr (register_eq_iff hr spIndex) rfl rfl
  refine ⟨fun hr hp hsp => ?_, fun hr => s.complete_regIdx_illegal hr _, fun hr hm hsp => ?_, fun hr hsp hp => ?_⟩ <;>
  rw [← hbase hr] at hsp
  · rw [← hbase hr]
    exact exec_pop_of_fits (regIdx_ok hr) hsp hp
  · exact exec_pop_spOverflow (regIdx_ok hr) hm hsp
  · exact exec_pop_pcOverflow (regIdx_ok hr) hsp hp

/-! ## CALL -/

/-- What CALL has written before it jumps (R146): RSP, and the return address in the cell RSP now points at. -/
def State.saveReturn (s : State) : State :=
  (s.writeReg rspIndex (s.readReg rspIndex - 1)).memWrite (s.readReg rspIndex - 1) (s.pc + 2)

@[simp] theorem State.saveReturn_readReg (s : State) (j : Fin 8) :
    s.saveReturn.readReg j = if j = rspIndex then s.readReg rspIndex - 1 else s.readReg j :=
  s.readReg_writeReg rspIndex j _

/-- The return address stands in the cell below the RSP that CALL found. -/
@[simp] theorem State.saveReturn_memRead_top (s : State) : s.saveReturn.memRead (s.readReg rspIndex - 1) = s.pc + 2 :=
  State.memRead_memWrite_same _ _ _

/-- With its three checks passed CALL commits the return address, RSP and the jump to its register. -/
theorem exec_call_of_fits {r : Byte} {i : Fin 8} {s : State} (hr : regIdx r = .ok i) (hp : fits s 2)
    (hrsp : s.cfg.addrOverflow = .wrap ∨ s.readReg rspIndex ≠ 0) :
    exec (.call r) s = .next (s.saveReturn.setPc (s.saveReturn.readReg i)) := by
  simp [exec, execCall, hr, State.pcPlus_ok hp, State.below_ok hrsp, State.saveReturn]

/-- The return address of CALL is checked before RSP, so this fault needs nothing of RSP. -/
theorem exec_call_pcOverflow {r : Byte} {i : Fin 8} {s : State} (hr : regIdx r = .ok i) (hp : overflows s 2) :
    exec (.call r) s = .next (faultEntry s (.addressOverflow (s.pc.toNat + 2))) := by
  obtain ⟨hm, hpc⟩ := hp
  simp [exec, execCall, hr, State.pcPlus_overflow hm hpc, State.raise_eq_faultEntry]

theorem exec_call_rspOverflow {r : Byte} {i : Fin 8} {s : State} (hr : regIdx r = .ok i) (hp : fits s 2)
    (hm : s.cfg.addrOverflow = .fault) (hrsp : s.readReg rspIndex = 0) :
    exec (.call r) s = .next (faultEntry s (.addressOverflow (-1))) := by
  have hbelow : s.below (s.readReg rspIndex) = .error (.addressOverflow (-1)) := by rw [hrsp, State.below_overflow hm]
  simp [exec, execCall, hr, State.pcPlus_ok hp, hbelow, State.raise_eq_faultEntry]

/-- Settles O8: one lemma for each outcome of `exec`; the jump goes to the decremented RSP when the byte names
register 6. -/
theorem callSavesReturnAddressAndJumps : Obligations.CallSavesReturnAddressAndJumps := by
  intro r s
  refine ⟨fun hr hp hrsp => ?_, fun hr => s.complete_regIdx_illegal hr _,
    fun hr hp => exec_call_pcOverflow (regIdx_ok hr) hp,
    fun hr hp hm hrsp => exec_call_rspOverflow (regIdx_ok hr) hp hm hrsp⟩
  rw [exec_call_of_fits (regIdx_ok hr) hp hrsp, State.saveReturn_readReg]
  simp only [register_eq_iff hr]
  rfl

end Sys2Proof.Machine

/-! # Laws over two instructions, and over the step after one

Each runs the first instruction by its lemma, carries what the second needs over to the state between, and runs the
second. -/

namespace Sys2Proof.Machine

open Sys2Proof.Claims

theorem fits_mono {s : State} {m n : Nat} (h : fits s n) (hmn : m ≤ n) : fits s m :=
  h.imp_right fun hn => (Nat.add_le_add_left hmn _).trans hn

/-- Where pc + k + m is an address or wraps, so is pc + m once pc has advanced by k. -/
theorem fits_of_advanced {s t : State} {k m : Nat} (h : fits s (k + m)) (hcfg : t.cfg = s.cfg)
    (hpc : t.pc = s.pc + BitVec.ofNat 8 k) : fits t m := by
  refine h.imp (fun hw => hcfg ▸ hw) fun hle => ?_
  have : t.pc.toNat = s.pc.toNat + k := by
    rw [hpc, BitVec.toNat_add, BitVec.toNat_ofNat]
    omega
  omega

/-- Settles O30: PRN finds in its register the byte LDI put there (41_load_print.md R103). -/
theorem loadThenPrintEmitsImmediate : Obligations.LoadThenPrintEmitsImmediate := by
  intro d v s hd hp
  have hp2 : fits ((s.writeReg ⟨d.toNat, hd⟩ v).setPc (s.pc + 3)) 2 := fits_of_advanced (k := 3) hp rfl rfl
  refine ⟨_, _, exec_ldi_of_fits hd (fits_mono hp (by decide)) v, exec_prn_of_fits (regIdx_ok hd) hp2, ?_⟩
  simp

/-- Settles O31: POP finds SP where PUSH left it, so it loads the byte PUSH stored and steps SP back
(43_stack.md R119). -/
theorem pushThenPopRestores : Obligations.PushThenPopRestores := by
  intro a b s ha hb hp hsp
  have hane : a ≠ spIndex := fun h => by simp [h] at ha
  have hbne : b ≠ spIndex := fun h => by simp [h] at hb
  obtain ⟨t, ht⟩ : ∃ t, t = (s.pushReg (s.readReg spIndex - 1) a).setPc (s.pc + 2) := ⟨_, rfl⟩
  have hpush : exec (.push (BitVec.ofNat 8 a.val)) s = .next t :=
    ht ▸ exec_push_of_fits (regIdx_ofNat a) hsp (fits_mono hp (by decide))
  have hcfg : t.cfg = s.cfg := by rw [ht]; rfl
  have htsp : t.readReg spIndex = s.readReg spIndex - 1 := by simp [ht]
  have hcell : t.memRead (s.readReg spIndex - 1) = s.readReg a := by simp [ht, State.pushReg_memRead, hane]
  have hp2 : fits t 2 := fits_of_advanced (k := 2) hp hcfg (by rw [ht]; rfl)
  have hbase : popBase t b = s.readReg spIndex - 1 := by rw [popBase, if_neg hbne, htsp]
  have habove : t.cfg.addrOverflow = .wrap ∨ popBase t b ≠ 255 := by
    rw [hcfg, hbase]
    refine hsp.imp_right fun h0 => ?_
    bv_omega
  refine ⟨t, _, hpush, exec_pop_of_fits (regIdx_ofNat b) habove hp2, ?_, ?_⟩
  · rw [State.setPc_readReg, State.readReg_writeReg_of_ne _ hbne, State.readReg_writeReg_same, htsp, hcell]
  · simp [hbase]

/-- Settles O32: what RET needs of CALL's state are RSP and its cell; the cell holds the return address
(45_subroutine.md R148). -/
theorem retResumesAfterItsCall : Obligations.RetResumesAfterItsCall := by
  intro r s hr hp hrsp
  refine ⟨_, exec_call_of_fits (regIdx_ok hr) hp hrsp, fun u hcfg hursp hucell => ?_⟩
  simp only [State.setPc_readReg, State.setPc_memRead, State.saveReturn_readReg, if_true,
    State.saveReturn_memRead_top] at hursp hucell
  have habove : u.cfg.addrOverflow = .wrap ∨ u.readReg rspIndex ≠ 255 := by
    rw [hcfg, hursp]
    refine hrsp.imp_right fun h0 => ?_
    bv_omega
  refine ⟨_, exec_ret_of_above_fits habove, ?_, ?_⟩
  · rw [State.writeReg_pc, State.setPc_pc, hursp, hucell]
  · simp [hursp]

/-- Settles O33: PUSH moves SP one below RSP and CALL then moves RSP there, so both store to that cell, CALL last
(70_reset_and_hazards.md R188). -/
theorem overlappingStacksLoseThePushedByte : Obligations.OverlappingStacksLoseThePushedByte := by
  intro r c s hr hc hw heq
  obtain ⟨t, ht⟩ : ∃ t, t = (s.pushReg (s.readReg spIndex - 1) ⟨r.toNat, hr⟩).setPc (s.pc + 2) := ⟨_, rfl⟩
  have hpush : exec (.push r) s = .next t := ht ▸ exec_push_of_fits (regIdx_ok hr) (.inl hw) (.inl hw)
  have htw : t.cfg.addrOverflow = .wrap := by rw [ht]; exact hw
  have htsp : t.readReg spIndex = t.readReg rspIndex - 1 := by
    simp [ht, heq, rspIndex_ne_spIndex]
  have htpc : t.pc + 2 = s.pc + 4 := by
    rw [ht, State.setPc_pc, BitVec.add_assoc]
    rfl
  refine ⟨t, _, hpush, exec_call_of_fits (regIdx_ok hc) (.inl htw) (.inl htw), ?_, ?_⟩
  · simp [htsp]
  · rw [State.setPc_memRead, State.setPc_readReg, State.saveReturn_readReg, if_neg rspIndex_ne_spIndex.symm, htsp,
      State.saveReturn_memRead_top, htpc]

/-- Settles O34: after the PUSH pc stands at the cell it stored to, so the next fetch reads the pushed byte as its
opcode (20_memory.md R54). -/
theorem pushedByteIsFetchedNext : Obligations.PushedByteIsFetchedNext := by
  intro r s t hlive hw hr hcell hpush
  rw [exec_push_of_fits (regIdx_ofNat r) (.inl hw) (.inl hw)] at hpush
  have ht := (Host.Outcome.next.inj hpush).symm
  have htlive : t.Live := by rw [ht]; exact hlive
  have htw : t.cfg.addrOverflow = .wrap := by rw [ht]; exact hw
  have hfetched : t.memRead t.pc = s.readReg r := by
    rw [ht, State.setPc_memRead, State.setPc_pc, hcell, State.pushReg_memRead, if_pos rfl, if_neg hr]
  constructor
  · intro hop
    rw [step_of_hlt htlive (hfetched.trans hop), exec_hlt_of_fits (.inl htw)]
    rfl
  · intro hnone
    rw [← hfetched] at hnone ⊢
    exact step_of_fetchInstr_error htlive (State.fetchInstr_illegalOpcode hnone)

end Sys2Proof.Machine

/-! # Isolation of the two stacks (43_stack.md R115, 45_subroutine.md R145)

An instruction that does not use a register computes the same whatever that register holds, and leaves it alone. This
is proved once for every register, handler by handler: both runs make the same checks and read the same values, and
their commits differ in that register only. -/

namespace Sys2Proof.Machine

open Sys2Proof.Claims

/-! ## Handlers that a register has no part in -/

/-- From the state with `x[k] = v` the handler gives the same fault, or the same commit with `x[k] = v`. -/
def SameButReg (k : Fin 8) (v : Byte) (h h' : Except FaultCause State) : Prop :=
  h' = h.map fun t => t.writeReg k v

theorem SameButReg.ok {k : Fin 8} {v : Byte} {t u : State} (h : u = t.writeReg k v) :
    SameButReg k v (.ok t) (.ok u) :=
  congrArg Except.ok h

/-- One check made by both handlers keeps them the same but for the register. -/
theorem SameButReg.bind {α : Type} {k : Fin 8} {v : Byte} (x : Except FaultCause α)
    {f f' : α → Except FaultCause State} (h : ∀ a, x = .ok a → SameButReg k v (f a) (f' a)) :
    SameButReg k v (x >>= f) (x >>= f') := by
  cases x with
  | ok a => exact h a rfl
  | error c => rfl

/-- The handler template keeps two handlers the same but for the register (40_fetch_decode_execute.md R88). -/
theorem SameButReg.complete {k : Fin 8} {v : Byte} {s t : State} {h h' : Except FaultCause State}
    (hs : SameButReg k v h h') (ht : s.complete h = .next t) :
    (s.writeReg k v).complete h' = .next (t.writeReg k v) := by
  cases hs
  cases h <;> cases ht <;> rfl

/-- A register checked for a byte that does not name k is not k. -/
theorem ne_of_regIdx_ok {b : Byte} {i k : Fin 8} (hi : regIdx b = .ok i) (hb : BitVec.ofNat 8 k.val ≠ b) : i ≠ k := by
  rintro rfl
  rcases regIdx_cases b with ⟨h, hok⟩ | ⟨-, herr⟩
  · cases Except.ok.inj (hok.symm.trans hi)
    exact hb (by simp)
  · simp [herr] at hi

/-! ## The instructions -/

/-- The register an instruction uses without naming it: SP for PUSH and POP, RSP for CALL and RET. -/
def impliedReg : Instr → Option (Fin 8)
  | .push _ => some spIndex
  | .pop _ => some spIndex
  | .call _ => some rspIndex
  | .ret => some rspIndex
  | _ => none

section

variable {s : State} {k : Fin 8} (v : Byte)

/-- Two writes, to registers other than k and to k, in either order. -/
theorem State.writeReg_writeReg_of_ne {t : State} {i : Fin 8} (h : i ≠ k) (w : Byte) :
    (t.writeReg k v).writeReg i w = (t.writeReg i w).writeReg k v :=
  t.writeReg_comm h.symm v w

/-- Both ALU handlers make the same checks and give the ALU the same operands. -/
theorem State.aluInstr_sameButReg {tag : AluTag} {a b : Byte} (ha : BitVec.ofNat 8 k.val ≠ a)
    (hb : BitVec.ofNat 8 k.val ≠ b) :
    SameButReg k v (s.aluInstr tag a b) ((s.writeReg k v).aluInstr tag a b) := by
  refine .bind _ fun i hi => .bind _ fun j hj => ?_
  have hik := ne_of_regIdx_ok hi ha
  rw [State.readReg_writeReg_of_ne _ hik, State.readReg_writeReg_of_ne _ (ne_of_regIdx_ok hj hb)]
  exact .bind _ fun w _ => .bind _ fun pcn _ =>
    .ok (congrArg (State.setPc · pcn) (State.writeReg_writeReg_of_ne v hik w))

/-- An instruction that neither names register k nor implies it computes the same with any `x[k]`, and leaves it
alone. -/
theorem exec_writeReg_unused {i : Instr} {t : State} (hnamed : BitVec.ofNat 8 k.val ∉ registerOperands i)
    (himplied : impliedReg i ≠ some k) (h : exec i s = .next t) :
    exec i (s.writeReg k v) = .next (t.writeReg k v) := by
  cases i <;> simp only [registerOperands, impliedReg, List.mem_cons, List.not_mem_nil, or_false, not_or, ne_eq,
    Option.some.injEq] at hnamed himplied
  case ldi d w =>
    exact SameButReg.complete (.bind _ fun j hj => .bind _ fun pcn _ =>
      .ok (congrArg (State.setPc · pcn) (State.writeReg_writeReg_of_ne v (ne_of_regIdx_ok hj hnamed) w))) h
  case prn r =>
    refine SameButReg.complete (.bind _ fun j hj => .bind _ fun pcn _ => .ok ?_) h
    rw [State.readReg_writeReg_of_ne _ (ne_of_regIdx_ok hj hnamed)]
    rfl
  case hlt =>
    simp only [exec, execHlt] at h ⊢
    exact SameButReg.complete (.bind _ fun _ _ => .ok rfl) h
  case push r =>
    simp only [exec, execPush, State.readReg_writeReg_of_ne _ himplied] at h ⊢
    refine SameButReg.complete (.bind _ fun j hj => .bind _ fun spn _ => .bind _ fun pcn _ => .ok ?_) h
    simp only [State.pushReg, State.writeReg_writeReg_of_ne v himplied]
    rw [State.readReg_writeReg_of_ne _ (ne_of_regIdx_ok hj hnamed)]
    rfl
  case pop r =>
    simp only [exec, execPop, State.readReg_writeReg_of_ne _ himplied] at h ⊢
    refine SameButReg.complete (.bind _ fun j hj => .bind _ fun spn _ => .bind _ fun pcn _ => .ok ?_) h
    rw [State.writeReg_writeReg_of_ne v (ne_of_regIdx_ok hj hnamed), State.writeReg_writeReg_of_ne v himplied]
    rfl
  case mul a b => exact SameButReg.complete (s.aluInstr_sameButReg v hnamed.1 hnamed.2) h
  case add a b => exact SameButReg.complete (s.aluInstr_sameButReg v hnamed.1 hnamed.2) h
  case call r =>
    simp only [exec, execCall, State.readReg_writeReg_of_ne _ himplied] at h ⊢
    refine SameButReg.complete (.bind _ fun j hj => .bind _ fun ra _ => .bind _ fun rspn _ => .ok ?_) h
    simp only [State.writeReg_writeReg_of_ne v himplied, State.memWrite_readReg]
    rw [State.readReg_writeReg_of_ne _ (ne_of_regIdx_ok hj hnamed)]
    rfl
  case ret =>
    simp only [exec, execRet, State.readReg_writeReg_of_ne _ himplied] at h ⊢
    refine SameButReg.complete (.bind _ fun rspn _ => .ok ?_) h
    exact State.writeReg_writeReg_of_ne (t := s.setPc (s.memRead (s.readReg rspIndex))) v himplied rspn

end

/-- Settles O35: only the transfers imply RSP. -/
theorem othersNeitherReadNorWriteRsp : Obligations.OthersNeitherReadNorWriteRsp := by
  intro i v s t hi hnamed h
  refine exec_writeReg_unused v (k := rspIndex) hnamed ?_ h
  cases i with
  | call r => exact absurd (.inr ⟨r, rfl⟩) hi
  | ret => exact absurd (.inl rfl) hi
  | push | pop => exact fun himplied => rspIndex_ne_spIndex (Option.some.inj himplied).symm
  | ldi | prn | hlt | mul | add => exact nofun

/-- Settles O36: only PUSH and POP imply SP. -/
theorem othersNeitherReadNorWriteSp : Obligations.OthersNeitherReadNorWriteSp := by
  intro i v s t hi hnamed h
  refine exec_writeReg_unused v (k := spIndex) hnamed ?_ h
  cases i with
  | push r => exact absurd rfl (hi r).1
  | pop r => exact absurd rfl (hi r).2
  | call | ret => exact fun himplied => rspIndex_ne_spIndex (Option.some.inj himplied)
  | ldi | prn | hlt | mul | add => exact nofun

end Sys2Proof.Machine

/-! # Loading a program (70_reset_and_hazards.md R180, R181, R183; 30_encoding.md R70) -/

namespace Sys2Proof.Machine

open Sys2Proof.Claims

/-! ## The load event -/

/-- A program that fits is read back from address 0 on; every cell past its end keeps its byte. -/
theorem State.storeBytes_zero_read (s : State) {p : List Byte} (hp : p.length ≤ 256) (a : Byte) :
    (s.storeBytes 0 p).memRead a = (p[a.toNat]?).getD (s.memRead a) := by
  simpa using s.storeBytes_read 0 p (by omega) a

/-- Settles O42: a program that fits is stored from address 0; the other two clauses are the refusals. -/
theorem loadStoresTheProgramFromZero : Obligations.LoadStoresTheProgramFromZero := by
  intro s p
  refine ⟨fun hs hp => ?_, State.hostEvent_load_tooLong, fun hs => by simp [State.hostEvent, hs]⟩
  exact ⟨s.storeBytes 0 p, State.hostEvent_load_ok hs hp, s.storeBytes_eq 0 p, s.storeBytes_zero_read hp⟩

/-- What boot leaves: reset's state with the program stored, in the run phase. -/
theorem boot_ok (cfg : Config) {p : List Byte} (hp : p.length ≤ 256) :
    boot cfg p = .ok { (State.resetWith cfg).storeBytes 0 p with phase := .run } := by
  rw [boot, State.hostEvent_load_ok rfl hp, State.storeBytes_eq]
  rfl

/-- At address 0 the operands of every instruction can be fetched. -/
theorem fits_of_pc_zero {s : State} {k : Nat} (hpc : s.pc = 0) (hk : k ≤ 255) : fits s k := by
  rw [fits, hpc]
  exact .inr (by simpa using hk)

/-- Settles O43: the fetch at address 0 reads the encoding back byte by byte. -/
theorem firstInstructionIsAtAddressZero : Obligations.FirstInstructionIsAtAddressZero := by
  intro cfg i rest hlen
  obtain ⟨s, hs⟩ : ∃ s, s = { (State.resetWith cfg).storeBytes 0 (encode i ++ rest) with phase := .run } := ⟨_, rfl⟩
  have hreset : s = { State.resetWith cfg with mem := s.mem, phase := .run } := by
    rw [hs, State.storeBytes_eq]
  have hpc : s.pc = 0 := by rw [hreset]; rfl
  have hlive : s.Live := by rw [hreset]; exact ⟨rfl, rfl, rfl⟩
  have hread : ∀ a : Byte, s.memRead a = ((encode i ++ rest)[a.toNat]?).getD 0 := fun a => by
    rw [hs]
    exact (State.resetWith cfg).storeBytes_zero_read hlen a
  have hcount := i.opcode.operandCount_le_two
  have hbytes : ∀ j, j < i.width → (encode i)[j]? = some (s.memRead (s.pc + BitVec.ofNat 8 j)) := fun j hj => by
    have hj' : j < (encode i).length := by rwa [encode_length]
    have hsmall : j < 2 ^ 8 := by
      rw [Instr.width] at hj
      omega
    rw [hread, hpc, zero_add, BitVec.toNat_ofNat, Nat.mod_eq_of_lt hsmall, List.getElem?_append_left hj',
      List.getElem?_eq_getElem hj', Option.getD_some]
  have hfetch := State.fetchInstr_of_encode hbytes (fits_of_pc_zero hpc (by omega))
  exact ⟨s, hs ▸ boot_ok cfg hlen, hpc, step_of_fetchInstr_ok hlive hfetch⟩

/-! ## The program text -/

/-- The first n of the eight binary digits of a byte, most significant first. -/
def highDigits (b : Byte) (n : Nat) : List Char := (List.range n).map fun k => if b.getLsbD (7 - k) then '1' else '0'

/-- The line of the program text that stands for a byte, without its end. -/
abbrev binaryDigits (b : Byte) : List Char := highDigits b 8

theorem binaryLine_eq (b : Byte) : binaryLine b = binaryDigits b ++ ['\n'] := rfl

theorem mem_highDigits {b : Byte} {n : Nat} {c : Char} (h : c ∈ highDigits b n) : c = '0' ∨ c = '1' := by
  obtain ⟨k, -, rfl⟩ := List.mem_map.1 h
  split
  · exact .inr rfl
  · exact .inl rfl

/-- The text of a program has the digits of each byte as a line, and after the last newline an empty one. -/
theorem textLines_binary (p : List Byte) : textLines (p.flatMap binaryLine) = p.map binaryDigits ++ [[]] := by
  induction p with
  | nil => rfl
  | cons b p ih =>
    have hb : '\n' ∉ binaryDigits b := fun h => by rcases mem_highDigits h with h | h <;> cases h
    rw [List.flatMap_cons, binaryLine_eq, List.append_assoc, List.singleton_append, textLines_append _ _ hb, ih]
    rfl

/-- A line without a comment, none of whose characters is white space, is its own text. -/
theorem lineText_eq_self {line : List Char} (h : ∀ c ∈ line, c ≠ '#' ∧ isBlank c = false) : lineText line = line := by
  have hdrop : ∀ l : List Char, (∀ c ∈ l, isBlank c = false) → l.dropWhile isBlank = l := fun l hl => by
    cases l with
    | nil => rfl
    | cons c l => simp [hl c (List.mem_cons_self ..)]
  have hcomment : line.takeWhile (· != '#') = line :=
    List.takeWhile_eq_self_iff.2 fun c hc => by simpa using (h c hc).1
  rw [lineText, hcomment, hdrop line fun c hc => (h c hc).2,
    hdrop line.reverse fun c hc => (h c (List.mem_reverse.1 hc)).2, List.reverse_reverse]

theorem lineText_binaryDigits (b : Byte) : lineText (binaryDigits b) = binaryDigits b := by
  refine lineText_eq_self fun c hc => ?_
  rcases mem_highDigits hc with rfl | rfl <;> decide

/-- One more digit doubles the number read so far and adds the digit. -/
theorem parseBase2_concat {digits : List Char} {n : Nat} (h : parseBase2 digits = some n) (x : Bool) :
    parseBase2 (digits ++ [if x then '1' else '0']) = some (2 * n + x.toNat) := by
  cases digits with
  | nil => cases h
  | cons c cs =>
    rw [parseBase2] at h
    · rw [List.cons_append, parseBase2, ← List.cons_append, List.foldl_append, h]
      · cases x <;> rfl
      · exact nofun
    · exact nofun

/-- The bits of a number above bit k, followed by bit k. -/
theorem shiftRight_eq_two_mul_add (b : Byte) (k : Nat) :
    b.toNat >>> k = 2 * (b.toNat >>> (k + 1)) + (b.getLsbD k).toNat := by
  rw [Nat.shiftRight_succ, BitVec.getLsbD, Nat.toNat_testBit, Nat.shiftRight_eq_div_pow]
  omega

/-- The first n digits of a byte are its value without the low 8 - n bits. -/
theorem parseBase2_highDigits (b : Byte) {n : Nat} (h : 0 < n) (h8 : n ≤ 8) :
    parseBase2 (highDigits b n) = some (b.toNat >>> (8 - n)) := by
  induction n, h using Nat.le_induction with
  | base =>
    have htop : b.toNat >>> 8 = 0 := Nat.shiftRight_eq_zero _ _ b.isLt
    have hdigit : parseBase2 (highDigits b 1) = some (b.getLsbD 7).toNat := by
      simp only [highDigits, List.range_one, List.map_singleton]
      cases b.getLsbD 7 <;> rfl
    rw [hdigit, shiftRight_eq_two_mul_add b 7, htop, Nat.mul_zero, Nat.zero_add]
  | succ n hn ih =>
    have hk : 8 - n = 7 - n + 1 := by omega
    have hk' : 8 - (n + 1) = 7 - n := by omega
    rw [hk', shiftRight_eq_two_mul_add b (7 - n), ← hk, highDigits, List.range_succ, List.map_append]
    exact parseBase2_concat (ih (by omega)) _

theorem parseBase2_binaryDigits (b : Byte) : parseBase2 (binaryDigits b) = some b.toNat :=
  parseBase2_highDigits b (by decide) (by decide)

/-- A line of eight digits gives its byte, and the lines after it the bytes after that. -/
theorem parseLines_binaryDigits_cons {n : Nat} {b : Byte} {lines : List (List Char)} {bs : List Byte}
    (h : parseLines (n + 1) lines = .ok bs) : parseLines n (binaryDigits b :: lines) = .ok (b :: bs) := by
  obtain ⟨c, cs, hdigits⟩ : ∃ c cs, binaryDigits b = c :: cs := ⟨_, _, rfl⟩
  have htext := lineText_binaryDigits b
  have hvalue := parseBase2_binaryDigits b
  rw [hdigits] at htext hvalue ⊢
  simp [parseLines, htext, hvalue, b.isLt, h, bind, Except.bind, pure, Except.pure]

/-- The lines of a program text are read as its bytes, whatever the number of the first. -/
theorem parseLines_binary (p : List Byte) (n : Nat) : parseLines n (p.map binaryDigits ++ [[]]) = .ok p := by
  induction p generalizing n with
  | nil => rfl
  | cons b p ih => exact parseLines_binaryDigits_cons (ih (n + 1))

/-- Settles O44: the text splits into one line a byte, and each line is read as its byte. -/
theorem binaryProgramTextLoads : Obligations.BinaryProgramTextLoads := by
  intro p
  rw [loadText, textLines_binary, parseLines_binary]

end Sys2Proof.Machine
